-- ==== Sys2Proof/Word.lean ====
section
/-! DEFINITION. The word types of the model. Every value of the spec is an unsigned bit vector, bit 0 the least
significant (spec 00_scope.md R6); the named bits are read with `BitVec.getLsbD`. The `zext_N` of R7 is `BitVec.setWidth N`
and its `sext_N`, used by no rule, is `BitVec.signExtend N`. -/

namespace Sys2Proof

/-- One byte: the addressable unit (R29). -/
abbrev Byte := BitVec 8

/-- The width of RFLAGS, RSP, RIP and the general registers (R10, R20, R23). -/
abbrev Word64 := BitVec 64

/-- A privilege level, 0 (most privileged) to 3: CPL and IOPL (R13, R14). -/
abbrev Level := BitVec 2

/-- An exception's error code. The page fault's code is an opaque value (R94); its width is PRESUMED (log 8), and no
rule reads a bit of it. -/
abbrev ErrorCode := BitVec 32

end Sys2Proof
end

