-- ==== Sys2Proof/Config.lean ====
section
/-! DEFINITION. The implementation parameters of spec 00_scope.md R5: the decoding attributes of the code segment, the
environment a run is launched in (the open functions of R33 to R35 as plain data), and the one free value of the spec. -/

namespace Sys2Proof

/-- R5, R19: which of legacy, compatibility and 64-bit the processor executes in. A state component of the spec's own. -/
inductive CodeMode where
  | legacy
  | compatibility
  | bits64
  deriving DecidableEq, Repr

/-- R22, R48: the default operand size of the code segment, used outside 64-bit mode. -/
inductive DefaultOperandSize where
  | d16
  | d32
  deriving DecidableEq, Repr

/-- R48: the operand-size attribute, the only decoded quantity. -/
inductive OperandSize where
  | s16
  | s32
  | s64
  deriving DecidableEq, Repr

/-- R57: what of the mode changes the decoding. Nothing else does. -/
structure DecodeContext where
  codeMode           : CodeMode
  defaultOperandSize : DefaultOperandSize
  deriving DecidableEq, Repr

/-- R35: what `Translate` answers for a linear address: a physical address or a page fault with its code. -/
inductive PageTarget where
  /-- physical address = linear address -/
  | identity
  /-- the entry's first byte lies at this physical address, the others follow it -/
  | mapped (physical : Nat)
  /-- a page fault with this fault code -/
  | pageFault (code : ErrorCode)
  deriving DecidableEq, Repr

/-- One line of the plain-data `Translate` of R35: the linear addresses from `base`, `size` of them, accessed at the
privilege level `level` (`none`: at every level). -/
structure PageEntry where
  base   : Nat
  size   : Nat
  level  : Option Level
  target : PageTarget
  deriving DecidableEq, Repr

/-- The open function `Translate` of R35 as plain data: the first entry that matches decides, and `other` where none does.
Every function of a linear address and a privilege level that departs from `other` at finitely many places can be written so. -/
structure Translation where
  entries : List PageEntry
  other   : PageTarget
  deriving DecidableEq, Repr

/-- R33: what `StackSegCheck` answers for the byte at an offset of the stack segment. -/
inductive StackPlace where
  /-- as the stack segment's registers give it: the usual realisation that R33 prints -/
  | segment
  /-- not within the stack segment -/
  | outside
  /-- within it; the range's first byte lies at this linear address, the others follow it -/
  | linear (address : Nat)
  deriving DecidableEq, Repr

/-- One line of the plain-data `StackSegCheck` of R33: the offsets from `base`, `size` of them. -/
structure StackRange where
  base  : Nat
  size  : Nat
  place : StackPlace
  deriving DecidableEq, Repr

/-- The open function `StackSegCheck` of R33 (D13) as plain data: the first range that holds an offset decides, and `other`
where none does. Which bytes are within the segment and the linear address of each are free (log 24). -/
structure StackMap where
  ranges : List StackRange
  other  : StackPlace
  deriving DecidableEq, Repr

/-- A run of physical addresses. -/
structure Region where
  base : Nat
  size : Nat
  deriving DecidableEq, Repr

/-- The launch parameters of R5 and R115 that no instruction changes: the canonical width `VA_BITS` (R34), the stack-segment
check (R33), the translation (R35), and the physical regions whose reads have side effects (R37). -/
structure Environment where
  vaBits      : Nat
  stackMap    : StackMap
  translation : Translation
  devices     : List Region
  deriving DecidableEq, Repr

/-- The environment of the reset state: `VA_BITS` at R34's default 48, the stack segment as its registers give it, an
identity translation, no device region (DESIGN CHOICE, log 3). -/
def Environment.atReset : Environment :=
  { vaBits := 48
    stackMap := { ranges := [], other := .segment }
    translation := { entries := [], other := .identity }
    devices := [] }

/-- The decoding attributes of the reset state: real-address mode with a 16-bit code segment (PRESUMED, log 1). -/
def DecodeContext.atReset : DecodeContext := { codeMode := .legacy, defaultOperandSize := .d16 }

/-- FREE VALUE (R73, decision D17, open behaviour U8): bits 63:32 of RSP after a pop with a 32-bit stack pointer are "any
value". The n-th draw of a run is `freeRspHigh n`; State counts the draws. No body: nothing can be proved of its value
(log 7). -/
opaque Config.freeRspHigh : Nat → BitVec 32

end Sys2Proof
end

