-- ==== Sys2Proof/Syntax.lean ====
section
/-! DEFINITION. The instructions, one constructor per row of spec/opcode_table.json. The instruction has no explicit operand
(spec 30_encoding.md R47); what a constructor carries is the prefixes its encoding shows (R45, R50, R51), which fix its
length (R53). -/

namespace Sys2Proof

/-- R50: whether the operand-size override prefix stands before the opcode. -/
inductive OpSizePrefix where
  | absent
  | present
  deriving DecidableEq, Repr

/-- R53: the three admitted sequences of prefixes that hold a LOCK prefix. -/
inductive LockForm where
  /-- `F0 9D` -/
  | lock
  /-- `F0 66 9D` -/
  | lockOpSize
  /-- `66 F0 9D` -/
  | opSizeLock
  deriving DecidableEq, Repr

inductive Instr where
  /-- POPF (R62): pop 16 bits into FLAGS. -/
  | popf (p : OpSizePrefix)
  /-- POPFD (R63): pop 32 bits into EFLAGS. -/
  | popfd (p : OpSizePrefix)
  /-- POPFQ (R64): pop 64 bits into RFLAGS. It is selected only with no operand-size prefix (R48). -/
  | popfq
  /-- The illegal encoding with a LOCK prefix (R51, R91), whatever form it would have been. -/
  | lockPopf (f : LockForm)
  deriving DecidableEq, Repr

end Sys2Proof
end

