-- ==== Sys2Proof/Decode.lean ====
section
/-! DEFINITION. Decoding, total on any byte sequence and rejecting by name (spec 30_encoding.md R58), and the encoder, written
from the encodings of R45 and R53. -/

namespace Sys2Proof

/-- R45, R46: the opcode byte. -/
def opcodeByte : Byte := 0x9D

/-- R50: the operand-size override prefix. -/
def opSizeByte : Byte := 0x66

/-- R51: the LOCK prefix. -/
def lockByte : Byte := 0xF0

/-- R52: the prefixes of every mode that the page does not show with this opcode. -/
def otherPrefixBytes : List Byte := [0x26, 0x2E, 0x36, 0x3E, 0x64, 0x65, 0x67, 0xF2, 0xF3]

/-- R52, R57: the REX prefixes, which are prefixes only in 64-bit mode. -/
def isRexByte (b : Byte) : Bool := decide (0x40 ≤ b.toNat ∧ b.toNat ≤ 0x4F)

/-- R48: how the operand-size attribute is resolved; `opSize` says whether the override prefix stands. A default of 32 in
real-address and virtual-8086 mode, which R48 lets a model exclude, is not excluded: `9D` is POPFD there (DESIGN CHOICE,
log 25). -/
def operandSize (c : DecodeContext) (opSize : OpSizePrefix) : OperandSize :=
  match c.codeMode, c.defaultOperandSize, opSize with
  | .bits64, _,    .absent  => .s64
  | .bits64, _,    .present => .s16
  | _,       .d16, .absent  => .s16
  | _,       .d16, .present => .s32
  | _,       .d32, .absent  => .s32
  | _,       .d32, .present => .s16

/-- The prefixes the decoder has consumed, in order. None stands twice: a repeated prefix is refused (R50). -/
inductive Prefixes where
  | none
  | opSize
  | lock
  | opSizeLock
  | lockOpSize
  deriving DecidableEq, Repr

/-- Why a byte sequence is rejected. The three `refused` outcomes of R58, and a sequence that ends before R58 decides. -/
inductive DecodeReject where
  /-- R50: 0x66 or 0xF0 a second time -/
  | repeatedPrefix
  /-- R52: another prefix -/
  | prefixNotInSource
  /-- R54: the first byte that is no prefix is not 0x9D -/
  | notPopf
  /-- the bytes end before the opcode byte -/
  | outOfBytes
  deriving DecidableEq, Repr

/-- R58: the operand-size prefix after the prefixes `p`; `none` where it repeats. -/
def addOpSize (p : Prefixes) : Option Prefixes :=
  match p with
  | .none => some .opSize
  | .lock => some .lockOpSize
  | .opSize | .opSizeLock | .lockOpSize => .none

/-- R58: the LOCK prefix after the prefixes `p`; `none` where it repeats. -/
def addLock (p : Prefixes) : Option Prefixes :=
  match p with
  | .none => some .lock
  | .opSize => some .opSizeLock
  | .lock | .opSizeLock | .lockOpSize => .none

/-- R53: how many bytes the prefixes take. -/
def prefixCount (p : Prefixes) : Nat :=
  match p with
  | .none => 0
  | .opSize | .lock => 1
  | .opSizeLock | .lockOpSize => 2

/-- R48, R49: the form that an encoding without LOCK selects. -/
def selectForm (c : DecodeContext) (p : OpSizePrefix) : Instr :=
  match operandSize c p with
  | .s16 => .popf p
  | .s32 => .popfd p
  | .s64 => .popfq

/-- R58, its last lines: the instruction once the opcode byte is reached. -/
def selectInstr (c : DecodeContext) (p : Prefixes) : Instr :=
  match p with
  | .none       => selectForm c .absent
  | .opSize     => selectForm c .present
  | .lock       => .lockPopf .lock
  | .lockOpSize => .lockPopf .lockOpSize
  | .opSizeLock => .lockPopf .opSizeLock

/-- R58's loop, from the point where the prefixes `p` have been consumed: the instruction and its length. -/
def decodeFrom (c : DecodeContext) (p : Prefixes) (bytes : List Byte) : Except DecodeReject (Instr × Nat) :=
  match bytes with
  | [] => .error .outOfBytes
  | b :: rest =>
    if b = opSizeByte then
      match addOpSize p with
      | none    => .error .repeatedPrefix
      | some p' => decodeFrom c p' rest
    else if b = lockByte then
      match addLock p with
      | none    => .error .repeatedPrefix
      | some p' => decodeFrom c p' rest
    else if b ∈ otherPrefixBytes then .error .prefixNotInSource
    else if c.codeMode = .bits64 ∧ isRexByte b = true then .error .prefixNotInSource
    else if b = opcodeByte then .ok (selectInstr c p, prefixCount p + 1)
    else .error .notPopf

/-- R58: the instruction at the head of `bytes` and its length in bytes. -/
def decode (c : DecodeContext) (bytes : List Byte) : Except DecodeReject (Instr × Nat) :=
  decodeFrom c .none bytes

/-- R45, R53: the operand-size prefix as bytes. -/
def encodeOpSize (p : OpSizePrefix) : List Byte :=
  match p with
  | .absent  => []
  | .present => [opSizeByte]

/-- R45, R53: the bytes of an instruction, lowest address first. -/
def encode (i : Instr) : List Byte :=
  match i with
  | .popf p               => encodeOpSize p ++ [opcodeByte]
  | .popfd p              => encodeOpSize p ++ [opcodeByte]
  | .popfq                => [opcodeByte]
  | .lockPopf .lock       => [lockByte, opcodeByte]
  | .lockPopf .lockOpSize => [lockByte, opSizeByte, opcodeByte]
  | .lockPopf .opSizeLock => [opSizeByte, lockByte, opcodeByte]

/-- R53: the length of an instruction in bytes. -/
def instrLength (i : Instr) : Nat := (encode i).length

/-- R53: the longest admitted encoding; R58 decides every sequence of this many bytes. -/
def maxLength : Nat := 3

/-- The bytes of a table word, the first at the lowest address, up to the longest instruction: the bits above `nbits` are
zero, and bits 7:0 are the first byte. -/
def tableBytes (nbits w : Nat) : List Byte :=
  (List.range maxLength).map (fun k => BitVec.ofNat 8 (w % 2 ^ nbits / 2 ^ (8 * k)))

/-- What the decoder reads from a table word in the decoding context of the reset state. All rows of
spec/opcode_table.json share the word 0x9D (R46), so the context alone tells POPF, POPFD and POPFQ apart (log 4). -/
def decodeTableWord (nbits w : Nat) : Option Instr :=
  match decode DecodeContext.atReset (tableBytes nbits w) with
  | .ok (i, _) => some i
  | .error _   => none

end Sys2Proof
end

