-- ==== Sys2Proof/Machine/State.lean ====
section
/-! DEFINITION. The state of the machine as plain data, the reasons a step can stop, and the state after reset. Every field is
named by a rule of spec 10_state.md or 20_memory.md, but for the two of the model's own, which say so. -/

namespace Sys2Proof.Machine

/-- R24: the general registers other than the stack pointer. No rule reads or writes one. -/
structure GeneralRegisters where
  rax : Word64
  rcx : Word64
  rdx : Word64
  rbx : Word64
  rbp : Word64
  rsi : Word64
  rdi : Word64
  r8  : Word64
  r9  : Word64
  r10 : Word64
  r11 : Word64
  r12 : Word64
  r13 : Word64
  r14 : Word64
  r15 : Word64
  deriving DecidableEq, Repr

/-- The bits of CR0 that the spec names: PE (R15), AM (R18), PG (R35). -/
structure Cr0 where
  pe : Bool
  am : Bool
  pg : Bool
  deriving DecidableEq, Repr

/-- The bits of CR4 that the spec names: VME (R16), PVI (R17, which no rule reads: R71). -/
structure Cr4 where
  vme : Bool
  pvi : Bool
  deriving DecidableEq, Repr

/-- R21, R32, R33: the stack segment, as what `StackAddrSize` and `StackSegCheck` read. `big` is the default-size flag SS.B. -/
structure StackSegment where
  selector   : BitVec 16
  base       : BitVec 32
  limit      : BitVec 32
  expandDown : Bool
  big        : Bool
  deriving DecidableEq, Repr

/-- Physical memory: the bytes that are not zero, addresses strictly rising. An address not listed reads as zero (log 2). -/
abbrev Memory := List Host.Cell

/-- R43, R115: the program bytes, by the value of rIP that fetches them, addresses strictly rising. An address not listed
holds no program byte (U21). -/
abbrev Program := List Host.Cell

structure State where
  /-- R10: the one flags register; EFLAGS is its bits 31:0, FLAGS its bits 15:0 -/
  rflags : Word64
  /-- R20: the stack pointer -/
  rsp : Word64
  /-- R23: the instruction pointer -/
  rip : Word64
  /-- R24 -/
  gprs : GeneralRegisters
  /-- R14: the current privilege level -/
  cpl : Level
  /-- R15, R18, R35 -/
  cr0 : Cr0
  /-- R16, R17 -/
  cr4 : Cr4
  /-- R19 -/
  codeMode : CodeMode
  /-- R22 -/
  defaultOperandSize : DefaultOperandSize
  /-- R21 -/
  ss : StackSegment
  /-- R29, R39 -/
  mem : Memory
  /-- R43, R115 -/
  program : Program
  /-- R5, R115: the launch parameters -/
  env : Environment
  /-- The model's own: the last instruction completed with TF = 1, so that R79 refuses the next step (log 5). -/
  trapFlagLeft : Bool
  /-- The model's own: how many free values have been drawn (log 7). -/
  draws : Nat
  deriving DecidableEq, Repr

/-- R90: the exceptions of the instruction, with their error codes. Each is a fault of the architecture: the state is that
of before the instruction (R99). The spec does not describe delivery, and makes the raise a terminal outcome (R8, R100), so a
step ends in one of these. Safe: the model goes no further where the hardware enters a handler. -/
inductive Fault where
  /-- #UD, no error code. Raised by every encoding with a LOCK prefix (R91). Safe. -/
  | invalidOpcode
  /-- #SS. Raised by the stack read of all three forms (R93); error code 0, none in real-address mode. Safe. -/
  | stackFault (code : Option ErrorCode)
  /-- #GP(0). Raised by POPF and POPFD in virtual-8086 mode with IOPL < 3 (R92). Safe. -/
  | generalProtection (code : ErrorCode)
  /-- #PF(fault-code). Raised by the stack read of all three forms, the code being the translation's (R94). Safe. -/
  | pageFault (code : ErrorCode)
  /-- #AC(0). Raised by the stack read of all three forms (R95). Safe. -/
  | alignmentCheck (code : ErrorCode)
  deriving DecidableEq, Repr

/-- R8: the situations to which the spec gives no meaning. Each is safe: a run that meets one proves nothing. -/
inductive Refusal where
  /-- No arm of exec answers this: every instruction has its meaning. Safe. -/
  | notModelled (mnemonic : String)
  /-- R27: no row of Table 4-15 covers the state. Raised by POPF, POPFD and POPFQ. Safe. -/
  | inconsistentMode
  /-- R38: the bytes at the stack pointer run past the top of its range. Raised by POPF, POPFD and POPFQ. Safe. -/
  | stackPointerWrap
  /-- R37, U16: the stack lies in a device region whose reads have side effects. Raised by POPF, POPFD and POPFQ. Safe. -/
  | deviceStackRead
  /-- R23, U20: rIP would wrap. Raised by a fetch, and by POPF, POPFD and POPFQ as they complete. Safe. -/
  | ipWrap
  /-- R50: a prefix stands twice. Raised by the fetch of the instruction. Safe. -/
  | repeatedPrefix
  /-- R52: a prefix the page does not show with this opcode. Raised by the fetch of the instruction. Safe. -/
  | prefixNotInSource
  /-- R54: the bytes at rIP are another instruction. Raised by the fetch of the instruction. Safe. -/
  | notPopf
  /-- U21: there is no program byte at rIP. Raised by the fetch of the instruction. Safe. -/
  | outsideProgram
  /-- R79: the instruction before left TF = 1. Raised by a step, before its fetch. Safe. -/
  | singleStepNotModelled
  deriving DecidableEq, Repr

/-- The state after reset. The spec defines none (R28, R115); these are the family's values, which R28 prints in part
for orientation (PRESUMED, log 1). Memory and program hold nothing: the spec leaves both to the launch (logs 2, 4). -/
def State.reset : State :=
  { rflags := 0x2
    rsp := 0
    rip := 0xFFF0
    gprs :=
      { rax := 0, rcx := 0, rdx := 0, rbx := 0, rbp := 0, rsi := 0, rdi := 0
        r8 := 0, r9 := 0, r10 := 0, r11 := 0, r12 := 0, r13 := 0, r14 := 0, r15 := 0 }
    cpl := 0
    cr0 := { pe := false, am := false, pg := false }
    cr4 := { vme := false, pvi := false }
    codeMode := DecodeContext.atReset.codeMode
    defaultOperandSize := DecodeContext.atReset.defaultOperandSize
    ss := { selector := 0, base := 0, limit := 0xFFFF, expandDown := false, big := false }
    mem := []
    program := []
    env := Environment.atReset
    trapFlagLeft := false
    draws := 0 }

end Sys2Proof.Machine
end

