-- ==== Sys2Proof/Machine/Flags.lean ====
section
/-! DEFINITION. The flags register: its bits (spec 10_state.md R11 to R13), the set of bits a row of Table 4-15 takes from the
stack (40_popf.md R61), and the two masked updates of R60. -/

namespace Sys2Proof.Machine

/-- R11: a single flag of RFLAGS, by its bit. -/
def flag (f : Word64) (bit : Nat) : Bool := f.getLsbD bit

/-- R11: VM, bit 17. -/
def State.vm (s : State) : Bool := flag s.rflags 17

/-- R11: AC, bit 18. -/
def State.ac (s : State) : Bool := flag s.rflags 18

/-- R11: VIP, bit 20. -/
def State.vip (s : State) : Bool := flag s.rflags 20

/-- R13: IOPL, bits 13:12 of the flags as they stand before the instruction. -/
def State.iopl (s : State) : Level := s.rflags.extractLsb' 12 2

/-- R12: every bit that is not a column of Table 4-15. -/
def reservedMask : Word64 := 0xFFFFFFFFFFC0802A

/-- R61: CF, PF, AF, ZF, SF, TF, DF, OF and NT. -/
def arithNtMask : Word64 := 0x4DD5

/-- R61: IF, bit 9. -/
def ifMask : Word64 := 0x200

/-- R61: IOPL, bits 13:12. -/
def ioplMask : Word64 := 0x3000

/-- R61: AC and ID, bits 18 and 21. -/
def acIdMask : Word64 := 0x240000

/-- R11: RF, bit 16. -/
def rfMask : Word64 := 0x10000

/-- R11: VIF, bit 19. -/
def vifMask : Word64 := 0x80000

/-- R61: the bits below 16 that the applicable row marks "S". `none` in virtual-8086 mode with IOPL < 3, where R61 defines
no mask. The comparisons are of unsigned levels (R13). -/
def lowMask (vm pe : Bool) (cpl iopl : Level) : Option Word64 :=
  if vm = false then
    if pe = false ∨ cpl = 0 then some (arithNtMask ||| ifMask ||| ioplMask)
    else if iopl < cpl then some arithNtMask
    else some (arithNtMask ||| ifMask)
  else if iopl = 3 then some (arithNtMask ||| ifMask)
  else none

/-- R61: AC and ID are written exactly at operand sizes 32 and 64. -/
def highMask (size : OperandSize) : Word64 :=
  match size with
  | .s16 => 0
  | .s32 | .s64 => acIdMask

/-- R61: `WriteMask`. -/
def writeMask (vm pe : Bool) (cpl iopl : Level) (size : OperandSize) : Option Word64 :=
  match lowMask vm pe cpl iopl with
  | some low => some (low ||| highMask size)
  | none     => none

/-- R60: the masked update. A bit of `mask` takes the image's bit, RF is cleared, every other bit keeps its value. -/
def maskedFlags (old image mask : Word64) : Word64 :=
  (old &&& ~~~(mask ||| rfMask)) ||| (image &&& mask)

/-- R60, R65: the update of the virtual-8086 mode extensions, in which VIF takes bit 9 of the image. -/
def vmeFlags (old image : Word64) : Word64 :=
  (old &&& ~~~(arithNtMask ||| rfMask ||| vifMask)) ||| (image &&& arithNtMask) |||
    (((image >>> 9) &&& 1) <<< 19)

/-- R65: the images that the virtual-8086 mode extensions turn into #GP(0): TF set, or IF set while VIP = 1. -/
def vmeImageFaults (vip : Bool) (image : Word64) : Bool :=
  (vip && flag image 9) || flag image 8

end Sys2Proof.Machine
end

