-- ==== Sys2Proof/Machine/Operands.lean ====
section
/-! DEFINITION. The implicit operands of the instruction (spec 30_encoding.md R47): the operand size in bytes, the operating
mode (10_state.md R19, R27), the stack pointer at its width (20_memory.md R32, 40_popf.md R73) and the instruction pointer at
its width (10_state.md R23). -/

namespace Sys2Proof.Machine

/-- R60: `n`, the bytes an operand size pops. -/
def sizeBytes (size : OperandSize) : Nat :=
  match size with
  | .s16 => 2
  | .s32 => 4
  | .s64 => 8

/-- R60, R14: the CPL the rules use, which is 0 in real-address mode whatever the field holds. -/
def State.effectiveCpl (s : State) : Level := if s.cr0.pe = false then 0 else s.cpl

/-- R27, its first four lines: some row of Table 4-15 covers the state. R27 asks nothing of the default operand size, so a
default of 32 in real-address or virtual-8086 mode is consistent (DESIGN CHOICE, log 25). -/
abbrev State.ModeConsistent (s : State) : Prop :=
  (s.cr0.pe = false → s.vm = false) ∧
  (s.vm = true → s.cpl = 3) ∧
  (s.vm = true → s.codeMode = .legacy) ∧
  (s.cr0.pe = false → s.codeMode = .legacy)

/-- R27, its last line: the operand size exists in the code mode. -/
abbrev State.SizeConsistent (s : State) (size : OperandSize) : Prop :=
  (size = .s64 → s.codeMode = .bits64) ∧ (size = .s32 → s.codeMode ≠ .bits64)

/-- R19: the operating modes. -/
inductive OperatingMode where
  | realAddress
  | protectedMode
  | compatibilityMode
  | mode64
  | virtual8086
  | virtual8086Vme
  deriving DecidableEq, Repr

/-- R19: the operating mode; `none` in a state that R27 excludes. -/
def State.operatingMode (s : State) : Option OperatingMode :=
  if s.ModeConsistent then
    if s.cr0.pe = false then some .realAddress
    else if s.vm = true then
      if s.cr4.vme = true then some .virtual8086Vme else some .virtual8086
    else
      match s.codeMode with
      | .legacy        => some .protectedMode
      | .compatibility => some .compatibilityMode
      | .bits64        => some .mode64
  else none

/-- R57: the context in which the bytes at rIP are decoded. -/
def State.decodeContext (s : State) : DecodeContext :=
  { codeMode := s.codeMode, defaultOperandSize := s.defaultOperandSize }

/-- R32: `StackAddrSize`, in bits. The operand-size prefix does not change it. -/
def State.stackAddrSize (s : State) : Nat :=
  match s.codeMode, s.ss.big with
  | .bits64, _     => 64
  | _,       true  => 32
  | _,       false => 16

/-- R31: SP, ESP or RSP. -/
def State.stackPointer (s : State) : Nat := s.rsp.toNat % 2 ^ s.stackAddrSize

/-- R73: RSP with the value `v`, taken modulo `2^StackAddrSize`, in the stack pointer. With a 16-bit stack pointer bits
63:16 are kept; with a 32-bit one bits 63:32 are a free value (D17). -/
def State.rspWith (s : State) (v : Nat) : Word64 :=
  match s.codeMode, s.ss.big with
  | .bits64, _     => BitVec.ofNat 64 v
  | _,       true  => Config.freeRspHigh s.draws ++ BitVec.ofNat 32 v
  | _,       false => s.rsp.extractLsb' 16 48 ++ BitVec.ofNat 16 v

/-- The draws counted after RSP is written: a 32-bit stack pointer takes one (D17). -/
def State.drawsAfterPop (s : State) : Nat :=
  match s.codeMode, s.ss.big with
  | .bits64, _     => s.draws
  | _,       true  => s.draws + 1
  | _,       false => s.draws

/-- R23: the width of rIP: RIP in 64-bit mode, IP with a 16-bit code segment, EIP elsewhere. -/
def State.ipWidth (s : State) : Nat :=
  match s.codeMode, s.defaultOperandSize with
  | .bits64, _    => 64
  | _,       .d16 => 16
  | _,       .d32 => 32

/-- R23: rIP at its width. -/
def State.ip (s : State) : Nat := s.rip.toNat % 2 ^ s.ipWidth

end Sys2Proof.Machine
end

