-- ==== Sys2Proof/Machine/Ops.lean ====
section
/-! DEFINITION. The named operations: the cells of memory and of the program, the linear and physical addresses of the stack
read and its checks (spec 20_memory.md R33 to R37), `Pop` (R31), raising an exception (00_scope.md R8), completing an
instruction (40_popf.md R60), and fetching one (30_encoding.md R45, R58). -/

namespace Sys2Proof.Machine

/-! Cells -/

/-- The byte a list of cells holds at an address. -/
def findCell (cells : List Host.Cell) (a : Nat) : Option Byte :=
  match cells with
  | [] => none
  | (k, b) :: rest => if k = a then some b else findCell rest a

/-- The list without the cell at an address. -/
def eraseCell (cells : List Host.Cell) (a : Nat) : List Host.Cell :=
  match cells with
  | [] => []
  | (k, b) :: rest => if k = a then eraseCell rest a else (k, b) :: eraseCell rest a

/-- The list with a cell at its place in the rising order, whatever stood at the address replaced. -/
def insertCell (cells : List Host.Cell) (a : Nat) (v : Byte) : List Host.Cell :=
  match cells with
  | [] => [(a, v)]
  | (k, b) :: rest =>
    if a < k then (a, v) :: (k, b) :: rest
    else if a = k then (a, v) :: rest
    else (k, b) :: insertCell rest a v

/-- The addresses of a list of cells rise strictly, from `low` on. -/
def risingFrom (low : Nat) (cells : List Host.Cell) : Bool :=
  match cells with
  | [] => true
  | (k, _) :: rest => decide (low ≤ k) && risingFrom (k + 1) rest

/-- What an address of memory that is not listed reads as (log 2). -/
def unlistedByte : Byte := 0

/-- The canonical form of memory: addresses strictly rising, and no cell that holds what an unlisted address reads as. -/
def Memory.wf (m : Memory) : Bool := risingFrom 0 m && m.all (fun c => decide (c.2 ≠ unlistedByte))

/-- The canonical form of the program: addresses strictly rising. -/
def Program.wf (p : Program) : Bool := risingFrom 0 p

/-- R29: one byte of memory. -/
def Memory.read (m : Memory) (a : Nat) : Byte :=
  match findCell m a with
  | some b => b
  | none   => unlistedByte

/-- One byte of memory written, in canonical form. -/
def Memory.write (m : Memory) (a : Nat) (v : Byte) : Memory :=
  if v = unlistedByte then eraseCell m a else insertCell m a v

/-- R30: the value of a run of bytes, the byte at the lowest address the least significant. -/
def littleEndian (bytes : List Byte) : Nat :=
  match bytes with
  | [] => 0
  | b :: rest => b.toNat + 256 * littleEndian rest

/-- R7: `MemWrite(a, n, v)` on physical memory, little-endian. Defined for completeness, as in R7; no instruction uses it. -/
def Memory.writeLittleEndian (m : Memory) (a n : Nat) (v : Nat) : Memory :=
  match n with
  | 0 => m
  | k + 1 => Memory.writeLittleEndian (m.write a (BitVec.ofNat 8 v)) (a + 1) k (v / 256)

/-! The addresses of the stack read -/

/-- R35: does the entry apply to a linear address accessed at this level? -/
def pageEntryMatches (la : Nat) (level : Level) (e : PageEntry) : Bool :=
  decide (e.base ≤ la ∧ la < e.base + e.size) && (e.level == none || e.level == some level)

/-- R35: the answer of a target for the linear address `offset` bytes into its entry. -/
def pageTargetAt (t : PageTarget) (la offset : Nat) : Except ErrorCode Nat :=
  match t with
  | .identity        => .ok la
  | .mapped physical => .ok (physical + offset)
  | .pageFault code  => .error code

/-- R35: `Translate(la, data read, cpl)`: the physical address, or the code of a page fault. It is the identity in
real-address mode and while CR0.PG = 0. -/
def translateByte (s : State) (la : Nat) : Except ErrorCode Nat :=
  if s.cr0.pe = false ∨ s.cr0.pg = false then .ok la
  else
    match s.env.translation.entries.find? (pageEntryMatches la s.effectiveCpl) with
    | some e => pageTargetAt e.target la (la - e.base)
    | none   => pageTargetAt s.env.translation.other la la

/-- R35: the physical addresses of a run of linear addresses, or the code of the first that faults (log 9). -/
def translateAll (s : State) (las : List Nat) : Except ErrorCode (List Nat) :=
  match las with
  | [] => .ok []
  | la :: rest =>
    match translateByte s la with
    | .error code => .error code
    | .ok p =>
      match translateAll s rest with
      | .error code => .error code
      | .ok ps => .ok (p :: ps)

/-- R37: the physical address lies in a region whose reads have side effects. -/
def isDevice (s : State) (p : Nat) : Bool :=
  s.env.devices.any (fun r => decide (r.base ≤ p ∧ p < r.base + r.size))

/-- R33: in real-address and virtual-8086 mode the stack segment is 64 KiB from 16 × selector. -/
def State.selectorAddressed (s : State) : Bool := !s.cr0.pe || s.vm

/-- R33: SS.base. -/
def stackBase (s : State) : Nat :=
  if s.selectorAddressed = true then 16 * s.ss.selector.toNat else s.ss.base.toNat

/-- R33: the highest offset of an expand-down segment. -/
def expandDownTop (s : State) : Nat := if s.ss.big = true then 0xFFFFFFFF else 0xFFFF

/-- R33: an offset passes the limit check of the stack segment. -/
def withinLimit (s : State) (offset : Nat) : Bool :=
  if s.selectorAddressed = true then decide (offset ≤ 0xFFFF)
  else if s.ss.expandDown = true then decide (s.ss.limit.toNat < offset ∧ offset ≤ expandDownTop s)
  else decide (offset ≤ s.ss.limit.toNat)

/-- R34: bits 63 down to `vaBits - 1` of a 64-bit address are all equal. -/
def canonical (vaBits a : Nat) : Bool :=
  decide (a / 2 ^ (vaBits - 1) = 0 ∨ a / 2 ^ (vaBits - 1) = 2 ^ (64 - (vaBits - 1)) - 1)

/-- R33: the place `k` bytes further. -/
def advancePlace (p : StackPlace) (k : Nat) : StackPlace :=
  match p with
  | .segment        => .segment
  | .outside        => .outside
  | .linear address => .linear (address + k)

/-- R33: what the launch's `StackSegCheck` answers for an offset of the stack segment. -/
def stackPlace (s : State) (offset : Nat) : StackPlace :=
  match s.env.stackMap.ranges.find? (fun r => decide (r.base ≤ offset ∧ offset < r.base + r.size)) with
  | some r => advancePlace r.place (offset - r.base)
  | none   => advancePlace s.env.stackMap.other offset

/-- R33: outside 64-bit mode, an offset is within the stack segment. -/
def withinSegment (s : State) (offset : Nat) : Bool :=
  match stackPlace s offset with
  | .segment  => withinLimit s offset
  | .outside  => false
  | .linear _ => true

/-- R33, R34: the offset of one byte of the access is within the stack segment; in 64-bit mode there is no limit, and it is
canonical. -/
def withinStack (s : State) (offset : Nat) : Bool :=
  match s.codeMode with
  | .bits64 => canonical s.env.vaBits offset
  | .legacy | .compatibility => withinSegment s offset

/-- R29: the number of linear addresses. -/
def linearSpan (s : State) : Nat :=
  match s.codeMode with
  | .bits64 => 2 ^ 64
  | .legacy | .compatibility => 2 ^ 32

/-- R33: the linear address that the segment's registers give an offset; in 64-bit mode the base is 0. -/
def segmentLinear (s : State) (offset : Nat) : Nat :=
  match s.codeMode with
  | .bits64 => offset
  | .legacy | .compatibility => (stackBase s + offset) % linearSpan s

/-- R33: the linear address of the byte at an offset of the stack segment. One that the launch gives is taken modulo the span
of linear addresses, 2^32 outside 64-bit mode and 2^64 in it (DEDUCED, log 10). -/
def stackLinear (s : State) (offset : Nat) : Nat :=
  match stackPlace s offset with
  | .linear address     => address % linearSpan s
  | .segment | .outside => segmentLinear s offset

/-- R33: the error code of #SS: 0, but none in real-address mode. -/
def stackFaultCode (s : State) : Option ErrorCode := if s.cr0.pe = false then none else some 0

/-- R33: `StackSegCheck(sp, n)`: the linear address of the first byte, or #SS. -/
def stackSegCheck (s : State) (sp n : Nat) : Except Fault Nat :=
  if (List.range n).all (fun i => withinStack s (sp + i)) = true then .ok (stackLinear s sp)
  else .error (.stackFault (stackFaultCode s))

/-- The linear addresses of the n bytes from `la` on. Past the top of linear addresses (R29), which is 2^32 outside 64-bit mode
and 2^64 in it, they go on at 0 (DEDUCED, log 10). -/
def linearRun (s : State) (la n : Nat) : List Nat :=
  (List.range n).map (fun i => (la + i) % linearSpan s)

/-- R18, R36: `AlignmentFault(la, n)`, with the EFLAGS.AC of before the instruction. -/
def alignmentFault (s : State) (la n : Nat) : Bool :=
  s.cr0.am && s.ac && s.effectiveCpl == 3 && decide (la % n ≠ 0)

/-! Pop -/

/-- What ends an instruction before it completes. -/
inductive Stop where
  | fault (f : Fault)
  | refuse (r : Refusal)
  deriving DecidableEq, Repr

/-- What `Pop` returns: the image, zero-extended, and the RSP to be committed if the instruction completes. -/
structure Popped where
  image : Word64
  rsp   : Word64
  draws : Nat
  deriving DecidableEq, Repr

/-- R35, R37: the bytes at physical addresses, read from ordinary memory only. -/
def readOrdinary (s : State) (ps : List Nat) : Except Stop (List Byte) :=
  if ps.any (isDevice s) = true then .error (.refuse .deviceStackRead)
  else .ok (ps.map (fun p => Memory.read s.mem p))

/-- R31: the read of `Pop(n)` at the linear address `la`: #PF, then #AC, then the value. -/
def readStack (s : State) (la n : Nat) : Except Stop (List Byte) :=
  match translateAll s (linearRun s la n) with
  | .error code => .error (.fault (.pageFault code))
  | .ok ps =>
    if alignmentFault s la n = true then .error (.fault (.alignmentCheck 0))
    else readOrdinary s ps

/-- R31: `Pop(n)`. It writes nothing: the caller commits the new RSP. -/
def pop (n : Nat) (s : State) : Except Stop Popped :=
  if 2 ^ s.stackAddrSize < s.stackPointer + n then .error (.refuse .stackPointerWrap)
  else
    match stackSegCheck s s.stackPointer n with
    | .error f => .error (.fault f)
    | .ok la =>
      match readStack s la n with
      | .error e => .error e
      | .ok bytes =>
        .ok { image := BitVec.ofNat 64 (littleEndian bytes)
              rsp := s.rspWith (s.stackPointer + n)
              draws := s.drawsAfterPop }

/-! Ending an instruction -/

/-- R8, R99, R100: `raise`. Taking an exception is, in this spec, ending the step with its name and error code; no state
changes, and delivery is not described. -/
def raise (f : Fault) : Host.Outcome State Fault Refusal := .fault f

/-- R8: an instruction that ends before it completes. -/
def stopWith (e : Stop) : Host.Outcome State Fault Refusal :=
  match e with
  | .fault f  => raise f
  | .refuse r => .refused r

/-- The state with the flags, the popped RSP and a rIP further by `length` bytes written (R60, R73, R74). -/
def State.afterPop (s : State) (flags : Word64) (p : Popped) (length : Nat) : State :=
  { s with
    rflags := flags
    rsp := p.rsp
    rip := s.rip + BitVec.ofNat 64 length
    trapFlagLeft := flag flags 8
    draws := p.draws }

/-- R60, its last lines: the instruction completes, or is refused where rIP would wrap (R23). -/
def complete (s : State) (flags : Word64) (p : Popped) (length : Nat) : Host.Outcome State Fault Refusal :=
  if s.ip + length < 2 ^ s.ipWidth then .next (s.afterPop flags p length)
  else .refused .ipWrap

/-- R90: the vector of an exception. No rule depends on it (D23). -/
def faultVector (f : Fault) : Nat :=
  match f with
  | .invalidOpcode       => 6
  | .stackFault _        => 12
  | .generalProtection _ => 13
  | .pageFault _         => 14
  | .alignmentCheck _    => 17

/-- R90: the error code of an exception. -/
def faultCode (f : Fault) : Option ErrorCode :=
  match f with
  | .invalidOpcode          => none
  | .stackFault code        => code
  | .generalProtection code => some code
  | .pageFault code         => some code
  | .alignmentCheck code    => some code

/-! Fetch -/

/-- R45: up to `fuel` program bytes from `a` on, below `top`; they end where the program holds none. -/
def fetchFrom (p : Program) (top a fuel : Nat) : List Byte :=
  match fuel with
  | 0 => []
  | k + 1 =>
    if a < top then
      match findCell p a with
      | some b => b :: fetchFrom p top (a + 1) k
      | none   => []
    else []

/-- R45: the instruction bytes at rIP. -/
def fetchBytes (s : State) : List Byte := fetchFrom s.program (2 ^ s.ipWidth) s.ip maxLength

/-- R58, R23, U21: why a fetch is refused. -/
def fetchRefusal (s : State) (e : DecodeReject) : Refusal :=
  match e with
  | .repeatedPrefix    => .repeatedPrefix
  | .prefixNotInSource => .prefixNotInSource
  | .notPopf           => .notPopf
  | .outOfBytes        =>
    if s.ip + (fetchBytes s).length < 2 ^ s.ipWidth then .outsideProgram else .ipWrap

/-- R58: the instruction at rIP. -/
def fetch (s : State) : Except Refusal Instr :=
  match decode s.decodeContext (fetchBytes s) with
  | .ok (i, _) => .ok i
  | .error e   => .error (fetchRefusal s e)

/-- The program with `bytes` from `a` on. -/
def writeProgram (p : Program) (a : Nat) (bytes : List Byte) : Program :=
  match bytes with
  | [] => p
  | b :: rest => writeProgram (insertCell p a b) (a + 1) rest

/-- The state with another program. -/
def State.withProgram (s : State) (p : Program) : State := { s with program := p }

end Sys2Proof.Machine
end

