-- ==== Sys2Proof/Machine/Popf.lean ====
section
/-! DEFINITION. The meanings of POPF, POPFD, POPFQ and of the illegal LOCK form (spec 40_popf.md R60 to R66,
60_exceptions.md R91). -/

namespace Sys2Proof.Machine

/-- R60, the branches that pop and write under the mask of R61. -/
def popMasked (size : OperandSize) (mask : Word64) (length : Nat) (s : State) : Host.Outcome State Fault Refusal :=
  match pop (sizeBytes size) s with
  | .error e => stopWith e
  | .ok p    => complete s (maskedFlags s.rflags p.image mask) p length

/-- R65: the virtual-8086 mode extensions. The image is tested after the pop. -/
def popVme (length : Nat) (s : State) : Host.Outcome State Fault Refusal :=
  match pop (sizeBytes .s16) s with
  | .error e => stopWith e
  | .ok p    =>
    if vmeImageFaults s.vip p.image = true then raise (.generalProtection 0)
    else complete s (vmeFlags s.rflags p.image) p length

/-- R60: `Exec(OperandSize, length)`. A mask is defined but in virtual-8086 mode with IOPL < 3, where #GP(0) is raised
before any stack access (R66) or the extensions apply (R65). -/
def execSized (size : OperandSize) (length : Nat) (s : State) : Host.Outcome State Fault Refusal :=
  if s.ModeConsistent ∧ s.SizeConsistent size then
    match writeMask s.vm s.cr0.pe s.effectiveCpl s.iopl size with
    | some mask => popMasked size mask length s
    | none =>
      if size = .s32 ∨ s.cr4.vme = false then raise (.generalProtection 0)
      else popVme length s
  else .refused .inconsistentMode

/-- R62: POPF. -/
def execPopf (p : OpSizePrefix) (s : State) : Host.Outcome State Fault Refusal :=
  execSized .s16 (instrLength (.popf p)) s

/-- R63: POPFD. -/
def execPopfd (p : OpSizePrefix) (s : State) : Host.Outcome State Fault Refusal :=
  execSized .s32 (instrLength (.popfd p)) s

/-- R64: POPFQ. -/
def execPopfq (s : State) : Host.Outcome State Fault Refusal :=
  execSized .s64 (instrLength .popfq) s

/-- R91: an encoding with a LOCK prefix raises #UD before any test of the state, whatever its prefixes are. -/
def execLockPopf (_form : LockForm) (_s : State) : Host.Outcome State Fault Refusal :=
  raise .invalidOpcode

end Sys2Proof.Machine
end

