-- ==== Sys2Proof/Machine/Dispatch.lean ====
section
/-! DEFINITION. One arm per instruction, each one call of its meaning. -/

namespace Sys2Proof.Machine

def exec (i : Instr) (s : State) : Host.Outcome State Fault Refusal :=
  match i with
  | .popf p => Sys2Proof.Machine.execPopf p s
  | .popfd p => Sys2Proof.Machine.execPopfd p s
  | .popfq => Sys2Proof.Machine.execPopfq s
  | .lockPopf f => Sys2Proof.Machine.execLockPopf f s

end Sys2Proof.Machine
end

