-- ==== Sys2Proof/Machine/Step.lean ====
section
/-! DEFINITION. One step: the instruction at rIP, executed (spec 00_scope.md R8). -/

namespace Sys2Proof.Machine

/-- R8: one step. It is refused after an instruction that left TF = 1 (R79). -/
def step (s : State) : Host.Outcome State Fault Refusal :=
  if s.trapFlagLeft = true then .refused .singleStepNotModelled
  else
    match fetch s with
    | .error r => .refused r
    | .ok i    => exec i s

/-- The state with the bytes of a table word as the program bytes at rIP (log 4). -/
def State.withFetchWord (s : State) (nbits w : Nat) : State :=
  s.withProgram (writeProgram s.program s.ip (tableBytes nbits w))

end Sys2Proof.Machine
end

