-- ==== Sys2Proof/WellFormed.lean ====
section
/-! DEFINITION. Which instruction terms some byte sequence selects in a decoding context: the encodings of
spec/opcode_table.json, row by row, and the validity columns of spec 30_encoding.md R49. Written from the rows, apart from
the decoder, which is written from R48 and R58. -/

namespace Sys2Proof

/-- `i` has an encoding in the context `c` (R49; the "N.E." cells are false). -/
def wellFormed (c : DecodeContext) (i : Instr) : Bool :=
  match i with
  | .popf .absent    => decide (c.codeMode ≠ .bits64 ∧ c.defaultOperandSize = .d16)
  | .popf .present   => decide (c.codeMode = .bits64 ∨ c.defaultOperandSize = .d32)
  | .popfd .absent   => decide (c.codeMode ≠ .bits64 ∧ c.defaultOperandSize = .d32)
  | .popfd .present  => decide (c.codeMode ≠ .bits64 ∧ c.defaultOperandSize = .d16)
  | .popfq           => decide (c.codeMode = .bits64)
  | .lockPopf _      => true

end Sys2Proof
end

