-- ==== Sys2Proof/Safety.lean ====
section
/-! DEFINITION. The terms in which claims are made: the conditions on a state under which the stack read succeeds, the image it
gives bit by bit (spec 20_memory.md R30), the frame, the invariant of the machine, Table 4-15 as data (40_popf.md R72) and the
exception lists (60_exceptions.md R97). Written from the spec's tables, apart from the meanings. -/

namespace Sys2Proof.Machine

/-- The operand size of the three forms; the LOCK form has none (R49). -/
def formSize (i : Instr) : Option OperandSize :=
  match i with
  | .popf _     => some .s16
  | .popfd _    => some .s32
  | .popfq      => some .s64
  | .lockPopf _ => none

/-! The stack read -/

/-- R31, R33: the linear address of byte `k` of the top of stack. -/
def stackByteAddress (s : State) (k : Nat) : Nat := (stackLinear s s.stackPointer + k) % linearSpan s

/-- R35: byte `k` of the top of stack is translated without a page fault. -/
def stackByteMapped (s : State) (k : Nat) : Bool :=
  match translateByte s (stackByteAddress s k) with
  | .ok _    => true
  | .error _ => false

/-- R37: byte `k` of the top of stack lies in ordinary memory. -/
def stackByteOrdinary (s : State) (k : Nat) : Bool :=
  match translateByte s (stackByteAddress s k) with
  | .ok p    => !isDevice s p
  | .error _ => true

/-- R30: byte `k` of the top of stack. -/
def stackByte (s : State) (k : Nat) : Byte :=
  match translateByte s (stackByteAddress s k) with
  | .ok p    => Memory.read s.mem p
  | .error _ => 0

/-- R30: bit `k` of the popped image: the byte at the lowest address holds bits 7:0. -/
def imageBit (s : State) (k : Nat) : Bool := (stackByte s (k / 8)).getLsbD (k % 8)

/-- R38: the n bytes do not run past the top of the stack-pointer range. -/
abbrev StackInRange (s : State) (n : Nat) : Prop := s.stackPointer + n ≤ 2 ^ s.stackAddrSize

/-- R33, R34: the n bytes are within the stack segment; in 64-bit mode, canonical. -/
abbrev StackInSegment (s : State) (n : Nat) : Prop := ∀ k < n, withinStack s (s.stackPointer + k) = true

/-- R35: no byte of the n faults in translation. -/
abbrev StackMapped (s : State) (n : Nat) : Prop := ∀ k < n, stackByteMapped s k = true

/-- R37: the n bytes are ordinary memory. -/
abbrev StackOrdinary (s : State) (n : Nat) : Prop := ∀ k < n, stackByteOrdinary s k = true

/-- R36: the n-byte read is aligned, or alignment is not checked. -/
abbrev StackAligned (s : State) (n : Nat) : Prop :=
  stackLinear s s.stackPointer % n = 0 ∨ s.cr0.am = false ∨ s.ac = false ∨ s.effectiveCpl ≠ 3

/-- R116(1), R116(3): the stack read of n bytes succeeds. -/
abbrev StackReadable (s : State) (n : Nat) : Prop :=
  StackInRange s n ∧ StackInSegment s n ∧ StackMapped s n ∧ StackAligned s n ∧ StackOrdinary s n

/-- R60: the instruction gets as far as `Pop`: it is not one that R66 stops. -/
abbrev ReachesPop (s : State) (size : OperandSize) : Prop :=
  s.vm = false ∨ s.iopl = 3 ∨ (size = .s16 ∧ s.cr4.vme = true)

/-- R65: virtual-8086 mode with the extensions and IOPL < 3. -/
abbrev OnVmePath (s : State) : Prop := s.vm = true ∧ s.cr4.vme = true ∧ s.iopl ≠ 3

/-- R74: rIP does not wrap past an instruction of this length (R23). -/
abbrev IpAdvances (s : State) (length : Nat) : Prop := s.ip + length < 2 ^ s.ipWidth

/-! What an instruction does -/

/-- R60: the new flags take the bits of `mask` from the image, clear RF and keep every other bit. -/
abbrev FlagsTaken (s : State) (mask new : Word64) : Prop :=
  ∀ k < 64, new.getLsbD k =
    if mask.getLsbD k = true then imageBit s k else if k = 16 then false else s.rflags.getLsbD k

/-- R61: a mask at 16 bits, with AC and ID added at 32 and 64 bits. -/
def withAcId (low : Word64) (size : OperandSize) : Word64 := if size = .s16 then low else low ||| 0x240000

/-- The frame: what every form of the instruction leaves unchanged. It may write RFLAGS, the stack pointer RSP and rIP. -/
structure Kept (s t : State) : Prop where
  gprs : t.gprs = s.gprs
  cpl : t.cpl = s.cpl
  cr0 : t.cr0 = s.cr0
  cr4 : t.cr4 = s.cr4
  codeMode : t.codeMode = s.codeMode
  defaultOperandSize : t.defaultOperandSize = s.defaultOperandSize
  ss : t.ss = s.ss
  mem : t.mem = s.mem
  bytes : ∀ a, Memory.read t.mem a = Memory.read s.mem a
  program : t.program = s.program
  env : t.env = s.env

/-- R73, R74: the stack pointer further by n and rIP, at its width, by `length`; bits 63:16 of RSP are kept with a 16-bit
stack pointer. -/
structure Advanced (s t : State) (n length : Nat) : Prop where
  stackPointer : t.stackPointer = (s.stackPointer + n) % 2 ^ s.stackAddrSize
  rspAbove : s.stackAddrSize = 16 → t.rsp.extractLsb' 16 48 = s.rsp.extractLsb' 16 48
  ip : t.ip = s.ip + length

/-- R99: the state an outcome leaves. A fault leaves the state of before the instruction. -/
def stateAfter (s : State) (o : Host.Outcome State Fault Refusal) : State :=
  match o with
  | .next t    => t
  | .fault _   => s
  | .refused _ => s

/-- The invariant of the machine: canonical memory and program, a mode that Table 4-15 covers (R27), and the mark of R79
only where TF is set. -/
structure State.Inv (s : State) : Prop where
  mem : Memory.wf s.mem = true
  program : Program.wf s.program = true
  mode : s.ModeConsistent
  mark : s.trapFlagLeft = true → flag s.rflags 8 = true

/-- The state with other general registers and another CR4.PVI, which no rule reads (R24, R71). -/
def State.withUnread (s : State) (g : GeneralRegisters) (pvi : Bool) : State :=
  { s with gprs := g, cr4 := { vme := s.cr4.vme, pvi := pvi } }

/-- An outcome whose next state is changed by `f`. -/
def mapNext (f : State → State) (o : Host.Outcome State Fault Refusal) : Host.Outcome State Fault Refusal :=
  match o with
  | .next t    => .next (f t)
  | .fault e   => .fault e
  | .refused r => .refused r

/-! Table 4-15 -/

/-- The key of Table 4-15, but for "X", which a row has in all its cells or as the other half of all of them. -/
inductive TableCell where
  /-- updated from stack -/
  | S
  /-- updated from IF (bit 9) in FLAGS value on stack -/
  | SV
  /-- no change in value -/
  | N
  /-- value is cleared -/
  | Z
  deriving DecidableEq, Repr

/-- The row heads of Table 4-15. -/
inductive TableMode where
  | real
  | protectedCompat64
  | virtual8086
  | vme
  deriving DecidableEq, Repr

/-- The CPL and IOPL cells of a row. -/
inductive TableLevels where
  /-- CPL 0, IOPL 0-3 -/
  | cplZero
  /-- CPL 1-3, IOPL < CPL -/
  | ioplBelow
  /-- CPL 1-3, IOPL ≥ CPL -/
  | ioplAtLeast
  /-- CPL 3, IOPL 0-2 -/
  | ioplBelow3
  /-- CPL 3, IOPL 3 -/
  | iopl3
  deriving DecidableEq, Repr

/-- What the flag cells of a row say: "X" in every cell with note 1, or a cell a column, with notes 2 and 3 or without. -/
inductive TableOutcome where
  | noUpdate
  | update (cells : List TableCell)
  | updateUnlessNotes23 (cells : List TableCell)
  deriving DecidableEq, Repr

/-- A row of Table 4-15. `wide` is the operand size cell: false for 16, true for "32" and for "32, 64". -/
structure TableRow where
  mode    : TableMode
  wide    : Bool
  levels  : TableLevels
  outcome : TableOutcome
  deriving DecidableEq, Repr

/-- The header of Table 4-15: the bits of its 17 columns, left to right. -/
def tableColumns : List (List Nat) :=
  [[21], [20], [19], [18], [17], [16], [14], [13, 12], [11], [10], [9], [8], [7], [6], [4], [2], [0]]

/-- R72: the rows T1 to T16, cell by cell. -/
def table415 : List TableRow :=
  [ ⟨.real, false, .cplZero, .update [.N, .N, .N, .N, .N, .Z, .S, .S, .S, .S, .S, .S, .S, .S, .S, .S, .S]⟩,
    ⟨.real, true, .cplZero, .update [.S, .N, .N, .S, .N, .Z, .S, .S, .S, .S, .S, .S, .S, .S, .S, .S, .S]⟩,
    ⟨.protectedCompat64, false, .cplZero, .update [.N, .N, .N, .N, .N, .Z, .S, .S, .S, .S, .S, .S, .S, .S, .S, .S, .S]⟩,
    ⟨.protectedCompat64, false, .ioplBelow, .update [.N, .N, .N, .N, .N, .Z, .S, .N, .S, .S, .N, .S, .S, .S, .S, .S, .S]⟩,
    ⟨.protectedCompat64, false, .ioplAtLeast, .update [.N, .N, .N, .N, .N, .Z, .S, .N, .S, .S, .S, .S, .S, .S, .S, .S, .S]⟩,
    ⟨.protectedCompat64, true, .cplZero, .update [.S, .N, .N, .S, .N, .Z, .S, .S, .S, .S, .S, .S, .S, .S, .S, .S, .S]⟩,
    ⟨.protectedCompat64, true, .ioplBelow, .update [.S, .N, .N, .S, .N, .Z, .S, .N, .S, .S, .N, .S, .S, .S, .S, .S, .S]⟩,
    ⟨.protectedCompat64, true, .ioplAtLeast, .update [.S, .N, .N, .S, .N, .Z, .S, .N, .S, .S, .S, .S, .S, .S, .S, .S, .S]⟩ ] ++
  [ ⟨.virtual8086, false, .ioplBelow3, .noUpdate⟩,
    ⟨.virtual8086, false, .iopl3, .update [.N, .N, .N, .N, .N, .Z, .S, .N, .S, .S, .S, .S, .S, .S, .S, .S, .S]⟩,
    ⟨.virtual8086, true, .ioplBelow3, .noUpdate⟩,
    ⟨.virtual8086, true, .iopl3, .update [.S, .N, .N, .S, .N, .Z, .S, .N, .S, .S, .S, .S, .S, .S, .S, .S, .S]⟩,
    ⟨.vme, false, .ioplBelow3, .updateUnlessNotes23 [.N, .N, .SV, .N, .N, .Z, .S, .N, .S, .S, .N, .S, .S, .S, .S, .S, .S]⟩,
    ⟨.vme, false, .iopl3, .update [.N, .N, .N, .N, .N, .Z, .S, .N, .S, .S, .S, .S, .S, .S, .S, .S, .S]⟩,
    ⟨.vme, true, .ioplBelow3, .noUpdate⟩,
    ⟨.vme, true, .iopl3, .update [.S, .N, .N, .S, .N, .Z, .S, .N, .S, .S, .S, .S, .S, .S, .S, .S, .S]⟩ ]

/-- The row head's condition on CR0.PE, EFLAGS.VM and CR4.VME. -/
def tableModeApplies (m : TableMode) (s : State) : Bool :=
  match m with
  | .real              => !s.cr0.pe
  | .protectedCompat64 => s.cr0.pe && !s.vm
  | .virtual8086       => s.cr0.pe && s.vm && !s.cr4.vme
  | .vme               => s.cr0.pe && s.vm && s.cr4.vme

/-- The CPL and IOPL cells' condition; in real-address mode CPL counts as 0 (R14). -/
def tableLevelsApply (l : TableLevels) (s : State) : Bool :=
  match l with
  | .cplZero     => decide (s.effectiveCpl = 0)
  | .ioplBelow   => decide (s.effectiveCpl ≠ 0 ∧ s.iopl.toNat < s.effectiveCpl.toNat)
  | .ioplAtLeast => decide (s.effectiveCpl ≠ 0 ∧ s.effectiveCpl.toNat ≤ s.iopl.toNat)
  | .ioplBelow3  => decide (s.effectiveCpl = 3 ∧ s.iopl.toNat < 3)
  | .iopl3       => decide (s.effectiveCpl = 3 ∧ s.iopl.toNat = 3)

/-- The row of Table 4-15 is the one of this state and operand size. -/
def tableRowApplies (r : TableRow) (s : State) (size : OperandSize) : Bool :=
  tableModeApplies r.mode s && tableLevelsApply r.levels s && (r.wide == decide (size ≠ .s16))

/-- The new value of a bit that a cell gives. -/
def tableCellBit (c : TableCell) (s : State) (k : Nat) : Bool :=
  match c with
  | .S  => imageBit s k
  | .SV => imageBit s 9
  | .N  => s.rflags.getLsbD k
  | .Z  => false

/-- The flags of `t` are those the cells of a row give, column by column. -/
abbrev TableCellsHold (cells : List TableCell) (s t : State) : Prop :=
  ∀ c ∈ cells.zip tableColumns, ∀ k ∈ c.2, t.rflags.getLsbD k = tableCellBit c.1 s k

/-- Notes 2 and 3 of Table 4-15. -/
abbrev TableNotes23 (s : State) : Prop := (s.vip = true ∧ imageBit s 9 = true) ∨ imageBit s 8 = true

/-! The exception lists -/

/-- R97: the exceptions, with their error codes, that the page lists for a mode. The list of 64-bit mode has a #GP(0) that no
case of the instruction reaches (R96). -/
def listedFault (m : OperatingMode) (f : Fault) : Bool :=
  match m, f with
  | _, .invalidOpcode => true
  | .realAddress, .stackFault code => code == none
  | _, .stackFault code => code == some 0
  | .realAddress, .pageFault _ => false
  | _, .pageFault _ => true
  | .realAddress, .alignmentCheck _ => false
  | _, .alignmentCheck code => code == 0
  | .virtual8086, .generalProtection code => code == 0
  | .virtual8086Vme, .generalProtection code => code == 0
  | .mode64, .generalProtection code => code == 0
  | _, .generalProtection _ => false

end Sys2Proof.Machine
end

