-- ==== Sys2Proof/Certificates/Slice0/Obligations.lean ====
section
/-! DEFINITION. The statements for the provers. Each says which rule of spec/ it formalises. No statement rests on the value of
a free value, on what an unlisted byte of memory reads as, or on a reset value, unless its docstring says so. -/

open Sys2Proof Sys2Proof.Machine

/-! Encoding -/

/-- R45, R49, R53, R58: decoding the bytes of a well-formed instruction, whatever follows them, gives it back with its
length. -/
def Obligations.DecodeOfEncode : Prop :=
  ∀ (c : DecodeContext) (i : Instr) (rest : List Byte), wellFormed c i = true →
    decode c (encode i ++ rest) = .ok (i, instrLength i)

/-- R49, R54, R58: what the decoder reads is a well-formed instruction whose bytes stand there. So no byte sequence selects
POPFD in 64-bit mode or POPFQ outside it. -/
def Obligations.DecodedBytesAreAnEncoding : Prop :=
  ∀ (c : DecodeContext) (bytes : List Byte) (i : Instr) (n : Nat), decode c bytes = .ok (i, n) →
    wellFormed c i = true ∧ n = instrLength i ∧ bytes.take n = encode i ∧
      (c.codeMode = .bits64 → ∀ p, i ≠ .popfd p) ∧ (c.codeMode ≠ .bits64 → i ≠ .popfq)

/-- R48, R53, with the bytes written out: the six cells of R48 and the three LOCK encodings. -/
def Obligations.WrittenOutWordsDecode : Prop :=
  decode ⟨.legacy, .d16⟩ [0x9D] = .ok (.popf .absent, 1) ∧
  decode ⟨.legacy, .d16⟩ [0x66, 0x9D] = .ok (.popfd .present, 2) ∧
  decode ⟨.compatibility, .d32⟩ [0x9D] = .ok (.popfd .absent, 1) ∧
  decode ⟨.compatibility, .d32⟩ [0x66, 0x9D] = .ok (.popf .present, 2) ∧
  decode ⟨.bits64, .d32⟩ [0x9D] = .ok (.popfq, 1) ∧
  decode ⟨.bits64, .d32⟩ [0x66, 0x9D] = .ok (.popf .present, 2) ∧
  decode ⟨.legacy, .d32⟩ [0xF0, 0x9D] = .ok (.lockPopf .lock, 2) ∧
  decode ⟨.bits64, .d16⟩ [0xF0, 0x66, 0x9D] = .ok (.lockPopf .lockOpSize, 3) ∧
  decode ⟨.compatibility, .d16⟩ [0x66, 0xF0, 0x9D] = .ok (.lockPopf .opSizeLock, 3)

/-- R52, R57: after any admitted prefixes, LOCK among them, each other prefix is refused, REX only in 64-bit mode; R50: so is
a repeated one; R54: outside 64-bit mode the bytes of REX are other instructions. That a LOCK before such a prefix raises no
#UD, as R51 alone would have it, is the byte order of R58 (log 20, DESIGN CHOICE, the spec's D5). -/
def Obligations.OtherPrefixesAreRefused : Prop :=
  ∀ (c : DecodeContext) (rest : List Byte),
    (∀ before ∈ ([[], [0x66], [0xF0], [0x66, 0xF0], [0xF0, 0x66]] : List (List Byte)),
      (∀ b ∈ ([0x26, 0x2E, 0x36, 0x3E, 0x64, 0x65, 0x67, 0xF2, 0xF3] : List Byte),
        decode c (before ++ b :: rest) = .error .prefixNotInSource) ∧
      (∀ b : Byte, 0x40 ≤ b.toNat → b.toNat ≤ 0x4F →
        decode c (before ++ b :: rest) =
          .error (if c.codeMode = .bits64 then .prefixNotInSource else .notPopf)) ∧
      (∀ b ∈ before, decode c (before ++ b :: rest) = .error .repeatedPrefix))

/-! Step -/

/-- R8, R45, R58: when the program bytes at rIP are those of a well-formed instruction, a step is that instruction executed,
unless the instruction before left TF = 1 (R79). The step adds nothing to it: the instruction moves rIP itself (R74). -/
def Obligations.StepRunsDecodedInstruction : Prop :=
  ∀ (s : State) (i : Instr), s.trapFlagLeft = false → wellFormed s.decodeContext i = true →
    s.ip + instrLength i ≤ 2 ^ s.ipWidth →
    (∀ k < instrLength i, findCell s.program (s.ip + k) = (encode i)[k]?) →
    step s = exec i s

/-- R79: after a step that leaves TF = 1 the next step is refused, and after one that leaves TF = 0 it is not refused for
that: it fetches. -/
def Obligations.StepAfterTrapFlagIsRefused : Prop :=
  ∀ (s t : State), step s = .next t →
    (flag t.rflags 8 = true → step t = .refused .singleStepNotModelled) ∧
    (flag t.rflags 8 = false → ∀ i, fetch t = .ok i → step t = exec i t)

/-- U21 of 93_implementation_defined.md: a step where there is no program byte at rIP is refused. -/
def Obligations.StepOutsideProgramIsRefused : Prop :=
  ∀ (s : State), s.trapFlagLeft = false → findCell s.program s.ip = none → step s = .refused .outsideProgram

/-! The instructions complete -/

/-- R60 to R64, R70, R103: at CPL 0 or in real-address mode, POPF, POPFD and POPFQ complete wherever the stack read succeeds: every
non-reserved flag but VIP, VIF, VM and RF is taken, AC and ID only at operand sizes 32 and 64. -/
def Obligations.CompletesAtLevelZero : Prop :=
  ∀ (i : Instr) (size : OperandSize) (s : State), formSize i = some size → s.ModeConsistent → s.SizeConsistent size →
    s.vm = false → (s.cr0.pe = false ∨ s.cpl = 0) →
    StackReadable s (sizeBytes size) → IpAdvances s (instrLength i) →
    ∃ t, exec i s = .next t ∧ FlagsTaken s (withAcId 0x7FD5 size) t.rflags ∧
      Advanced s t (sizeBytes size) (instrLength i) ∧ Kept s t

/-- R60 to R64, R70, R103: at CPL 1 to 3 with IOPL < CPL they complete too, without an exception, and neither IF nor IOPL
changes. -/
def Obligations.CompletesAboveIopl : Prop :=
  ∀ (i : Instr) (size : OperandSize) (s : State), formSize i = some size → s.ModeConsistent → s.SizeConsistent size →
    s.vm = false → s.cr0.pe = true → s.iopl.toNat < s.cpl.toNat →
    StackReadable s (sizeBytes size) → IpAdvances s (instrLength i) →
    ∃ t, exec i s = .next t ∧ FlagsTaken s (withAcId 0x4DD5 size) t.rflags ∧
      Advanced s t (sizeBytes size) (instrLength i) ∧ Kept s t

/-- R60 to R64, R103, conflict C1: at CPL 1 to 3 with IOPL ≥ CPL they complete, IF is taken and IOPL is not. -/
def Obligations.CompletesWithinIopl : Prop :=
  ∀ (i : Instr) (size : OperandSize) (s : State), formSize i = some size → s.ModeConsistent → s.SizeConsistent size →
    s.vm = false → s.cr0.pe = true → s.cpl ≠ 0 → s.cpl.toNat ≤ s.iopl.toNat →
    StackReadable s (sizeBytes size) → IpAdvances s (instrLength i) →
    ∃ t, exec i s = .next t ∧ FlagsTaken s (withAcId 0x4FD5 size) t.rflags ∧
      Advanced s t (sizeBytes size) (instrLength i) ∧ Kept s t

/-- R60, R61, conflict C5: in virtual-8086 mode with IOPL = 3, whatever CR4.VME is, POPF and POPFD (prefixed or not)
complete, IF is taken and IOPL is not. POPFQ does not exist in that mode (R19, R27): no state meets the hypotheses for it. -/
def Obligations.CompletesInVirtual8086AtIopl3 : Prop :=
  ∀ (i : Instr) (size : OperandSize) (s : State), formSize i = some size → s.ModeConsistent → s.SizeConsistent size →
    s.vm = true → s.iopl = 3 →
    StackReadable s (sizeBytes size) → IpAdvances s (instrLength i) →
    ∃ t, exec i s = .next t ∧ FlagsTaken s (withAcId 0x4FD5 size) t.rflags ∧
      Advanced s t (sizeBytes size) (instrLength i) ∧ Kept s t

/-- R65: with the virtual-8086 mode extensions and IOPL < 3, POPF completes unless the image sets TF, or sets IF while
VIP = 1: VIF takes bit 9 of the image, CF, PF, AF, ZF, SF, TF, DF, OF and NT take theirs, RF is cleared, every other bit is
kept, and TF is 0. -/
def Obligations.PopfCompletesWithVme : Prop :=
  ∀ (p : OpSizePrefix) (s : State), s.ModeConsistent → OnVmePath s → StackReadable s 2 →
    IpAdvances s (instrLength (.popf p)) → ¬ TableNotes23 s →
    ∃ t, exec (.popf p) s = .next t ∧
      (∀ k < 64, t.rflags.getLsbD k =
        if k = 19 then imageBit s 9 else if (0x4DD5 : Word64).getLsbD k = true then imageBit s k
        else if k = 16 then false else s.rflags.getLsbD k) ∧
      flag t.rflags 8 = false ∧ Advanced s t 2 (instrLength (.popf p)) ∧ Kept s t

/-- The converse of the five statements above (R27, R38, R65, R66, R23, R37): an instruction completes only in a consistent
state, off the paths of R66 and of notes 2 and 3, with a readable stack, and where rIP does not wrap. That it does not complete
where it ends exactly at the top of rIP is the model's reading (log 14, DEDUCED). -/
def Obligations.CompletesOnlyThere : Prop :=
  ∀ (i : Instr) (s t : State), exec i s = .next t →
    ∃ size, formSize i = some size ∧ s.ModeConsistent ∧ s.SizeConsistent size ∧ ReachesPop s size ∧
      StackReadable s (sizeBytes size) ∧ IpAdvances s (instrLength i) ∧ ¬ (OnVmePath s ∧ TableNotes23 s)

/-! The flags -/

/-- R62, "Flags written": what a completed POPF does to each flag, off the path of R65. -/
def Obligations.PopfWritesFlags : Prop :=
  ∀ (p : OpSizePrefix) (s t : State), exec (.popf p) s = .next t → ¬ OnVmePath s →
    (∀ k ∈ [0, 2, 4, 6, 7, 8, 10, 11, 14], flag t.rflags k = imageBit s k) ∧
    (flag t.rflags 9 =
      if s.effectiveCpl.toNat ≤ s.iopl.toNat then imageBit s 9 else flag s.rflags 9) ∧
    (∀ k ∈ [12, 13], flag t.rflags k = if s.effectiveCpl = 0 then imageBit s k else flag s.rflags k) ∧
    flag t.rflags 16 = false ∧
    (∀ k ∈ [1, 3, 5, 15], flag t.rflags k = flag s.rflags k) ∧
    (∀ k, 17 ≤ k → k < 64 → flag t.rflags k = flag s.rflags k)

/-- R63, R64, "Flags written": POPFD and POPFQ write as POPF, and AC and ID from the image, always. -/
def Obligations.PopfdAndPopfqWriteFlags : Prop :=
  ∀ (i : Instr) (s t : State), (∃ size, formSize i = some size ∧ size ≠ .s16) → exec i s = .next t →
    (∀ k ∈ [0, 2, 4, 6, 7, 8, 10, 11, 14, 18, 21], flag t.rflags k = imageBit s k) ∧
    (flag t.rflags 9 =
      if s.effectiveCpl.toNat ≤ s.iopl.toNat then imageBit s 9 else flag s.rflags 9) ∧
    (∀ k ∈ [12, 13], flag t.rflags k = if s.effectiveCpl = 0 then imageBit s k else flag s.rflags k) ∧
    flag t.rflags 16 = false ∧
    (∀ k ∈ [1, 3, 5, 15, 17, 19, 20], flag t.rflags k = flag s.rflags k) ∧
    (∀ k, 22 ≤ k → k < 64 → flag t.rflags k = flag s.rflags k)

/-- R72: Table 4-15, cell by cell. In the row that covers the state and the operand size, a row of "X" raises #GP(0); a
completed instruction leaves in every column what the cell says; on the row of notes 2 and 3, an image they name is #GP(0)
once the stack read succeeds, and does not complete. -/
def Obligations.Table415Holds : Prop :=
  ∀ (i : Instr) (size : OperandSize) (s : State) (r : TableRow), formSize i = some size → s.ModeConsistent →
    s.SizeConsistent size → r ∈ table415 → tableRowApplies r s size = true →
    match r.outcome with
    | .noUpdate => exec i s = .fault (.generalProtection 0)
    | .update cells => ∀ t, exec i s = .next t → TableCellsHold cells s t
    | .updateUnlessNotes23 cells =>
      (∀ t, exec i s = .next t → TableCellsHold cells s t ∧ ¬ TableNotes23 s) ∧
      (StackReadable s 2 → TableNotes23 s → exec i s = .fault (.generalProtection 0))

/-- R19, R72: one row of Table 4-15, and one only, covers a consistent state and operand size. -/
def Obligations.Table415CoversEachStateOnce : Prop :=
  ∀ (s : State) (size : OperandSize), s.ModeConsistent → s.SizeConsistent size →
    ∃ r, table415.filter (fun r => tableRowApplies r s size) = [r]

/-- R67: RF is 0 after every completed execution; the image's bit 16 is never used: where two memories give images that agree
but in bit 16, the instruction does the same, next state, fault or refusal. On a fault RF keeps its value. -/
def Obligations.ResumeFlagIsCleared : Prop :=
  (∀ (i : Instr) (s t : State), exec i s = .next t → flag t.rflags 16 = false) ∧
  (∀ (i : Instr) (size : OperandSize) (s : State) (m : Memory), formSize i = some size →
    (∀ k < 8 * sizeBytes size, k ≠ 16 → imageBit { s with mem := m } k = imageBit s k) →
    exec i { s with mem := m } = mapNext (fun t => { t with mem := m }) (exec i s)) ∧
  (∀ (i : Instr) (s : State) (f : Fault), exec i s = .fault f → flag (stateAfter s (exec i s)).rflags 16 = flag s.rflags 16)

/-- R68: VIP and VM never change; VIF changes in no case but R65's, and then it takes image bit 9, never image bit 19. So the
instruction cannot enter or leave virtual-8086 mode, nor change the operating mode at all. -/
def Obligations.VirtualFlagsAreKept : Prop :=
  ∀ (i : Instr) (s t : State), exec i s = .next t →
    flag t.rflags 20 = flag s.rflags 20 ∧ flag t.rflags 17 = flag s.rflags 17 ∧
    (OnVmePath s → flag t.rflags 19 = imageBit s 9) ∧
    (¬ OnVmePath s → flag t.rflags 19 = flag s.rflags 19) ∧
    t.operatingMode = s.operatingMode

/-- R69: reserved bits never change, and the image bits at reserved positions are ignored, bits 63:32 of a 64-bit image
among them: where two memories give images that agree off the reserved bits, the instruction does the same. -/
def Obligations.ReservedBitsAreKeptAndIgnored : Prop :=
  (∀ (i : Instr) (s t : State), exec i s = .next t → t.rflags &&& reservedMask = s.rflags &&& reservedMask) ∧
  (∀ (i : Instr) (size : OperandSize) (s : State) (m : Memory), formSize i = some size →
    (∀ k < 8 * sizeBytes size, reservedMask.getLsbD k = false → imageBit { s with mem := m } k = imageBit s k) →
    exec i { s with mem := m } = mapNext (fun t => { t with mem := m }) (exec i s))

/-- R70: outside virtual-8086 mode insufficient privilege is silent. At CPL > 0 the IOPL field keeps its value whatever the
image holds, at CPL > IOPL so does IF; the instruction completes, popping the stack and writing the other flags. -/
def Obligations.InsufficientPrivilegeIsSilent : Prop :=
  ∀ (i : Instr) (size : OperandSize) (s : State), formSize i = some size → s.ModeConsistent → s.SizeConsistent size →
    s.vm = false → s.cr0.pe = true → s.cpl ≠ 0 →
    StackReadable s (sizeBytes size) → IpAdvances s (instrLength i) →
    ∃ t, exec i s = .next t ∧ t.iopl = s.iopl ∧
      (s.iopl.toNat < s.cpl.toNat → flag t.rflags 9 = flag s.rflags 9) ∧
      (s.cpl.toNat ≤ s.iopl.toNat → flag t.rflags 9 = imageBit s 9) ∧ flag t.rflags 16 = false ∧
      t.stackPointer = (s.stackPointer + sizeBytes size) % 2 ^ s.stackAddrSize ∧
      (∀ k ∈ [0, 2, 4, 6, 7, 8, 10, 11, 14], flag t.rflags k = imageBit s k) ∧
      (size ≠ .s16 → ∀ k ∈ [18, 21], flag t.rflags k = imageBit s k)

/-! Faults and refusals -/

/-- R51, R91: every encoding with a LOCK prefix decodes, in every context, to the illegal form, which raises #UD with no error
code in every state: before the mode and privilege tests and before any stack access. That it does so even in a state that
R27 excludes is the model's reading of the order of R60 and R91 (log 19, DEDUCED). -/
def Obligations.LockRaisesInvalidOpcode : Prop :=
  (∀ (c : DecodeContext) (rest : List Byte) (bytes : List Byte),
    bytes ∈ ([[0xF0, 0x9D], [0xF0, 0x66, 0x9D], [0x66, 0xF0, 0x9D]] : List (List Byte)) →
    ∃ f, decode c (bytes ++ rest) = .ok (.lockPopf f, bytes.length)) ∧
  (∀ (f : LockForm) (s : State), exec (.lockPopf f) s = .fault .invalidOpcode) ∧
  faultCode .invalidOpcode = none

/-- R66: in virtual-8086 mode with IOPL < 3, without the extensions or at operand size 32, the instruction raises #GP(0)
whatever the stack is, and updates nothing. That a bad stack pointer cannot turn this #GP(0) into #SS, #PF or #AC is R66's own
inference ("derived: from the order of the Operation"; log 13). With IOPL = 3 the 32-bit form executes as POPFD, with mask
0x244FD5. -/
def Obligations.Virtual8086BelowIopl3Faults : Prop :=
  (∀ (i : Instr) (size : OperandSize) (s : State), formSize i = some size → s.ModeConsistent → s.SizeConsistent size →
    s.vm = true → s.iopl.toNat < 3 → (s.cr4.vme = false ∨ size = .s32) →
    exec i s = .fault (.generalProtection 0) ∧ stateAfter s (exec i s) = s) ∧
  (∀ (p : OpSizePrefix) (s : State), s.ModeConsistent → s.vm = true → s.iopl = 3 → StackReadable s 4 →
    IpAdvances s (instrLength (.popfd p)) →
    ∃ t, exec (.popfd p) s = .next t ∧ FlagsTaken s 0x244FD5 t.rflags ∧ Advanced s t 4 (instrLength (.popfd p)) ∧ Kept s t)

/-- R65, R99: with the extensions and IOPL < 3, once the stack is read, an image that sets TF, or that sets IF while VIP = 1,
raises #GP(0); no state changes, the stack pointer among it. -/
def Obligations.VmeImageFaults : Prop :=
  ∀ (p : OpSizePrefix) (s : State), s.ModeConsistent → OnVmePath s → StackReadable s 2 → TableNotes23 s →
    exec (.popf p) s = .fault (.generalProtection 0) ∧ stateAfter s (exec (.popf p) s) = s

/-- R93: a top of stack that is not within the stack segment (in 64-bit mode: not canonical) raises #SS, with error code 0,
or none in real-address mode, whatever paging and alignment would say; and #SS is raised on no other path than one that
reaches the pop. That #SS goes before #PF and #AC is the inner order of R98, which the spec takes from general knowledge (D7;
log 13, PRESUMED). It holds for every `StackSegCheck` that a launch can give as plain data (R33, D13, log 24). -/
def Obligations.StackOutsideSegmentFaults : Prop :=
  (∀ (i : Instr) (size : OperandSize) (s : State), formSize i = some size → s.ModeConsistent → s.SizeConsistent size →
    ReachesPop s size → StackInRange s (sizeBytes size) → ¬ StackInSegment s (sizeBytes size) →
    exec i s = .fault (.stackFault (if s.operatingMode = some .realAddress then none else some 0))) ∧
  (∀ (i : Instr) (s : State) (code : Option ErrorCode), exec i s = .fault (.stackFault code) →
    ∃ size, formSize i = some size ∧ ReachesPop s size ∧ ¬ StackInSegment s (sizeBytes size))

/-- R34: in 64-bit mode a byte of the access is within the stack exactly when bits 63 down to VA_BITS - 1 of its address are
all equal, so POPF and POPFQ raise #SS(0) where some byte's are not, whatever paging and alignment would say (the inner order
of R98: D7; log 13, PRESUMED). `VA_BITS` is any width up to 64. -/
def Obligations.NonCanonicalStackFaults : Prop :=
  ∀ (i : Instr) (size : OperandSize) (s : State), formSize i = some size → s.ModeConsistent → s.SizeConsistent size →
    s.codeMode = .bits64 → 1 ≤ s.env.vaBits → s.env.vaBits ≤ 64 → StackInRange s (sizeBytes size) →
    ((∃ k < sizeBytes size, ∃ b, s.env.vaBits - 1 ≤ b ∧ b < 64 ∧
        (s.rsp.toNat + k).testBit b ≠ (s.rsp.toNat + k).testBit 63) ↔
      exec i s = .fault (.stackFault (some 0)))

/-- R94, R35: where the stack is within its segment and the translation faults on a byte of it, the instruction raises #PF with
the translation's code; that of the lowest such byte (log 9, DEDUCED), whatever the alignment (#PF before #AC is the inner order
of R98, from general knowledge: D7; log 13, PRESUMED). In real-address mode no translation faults; nor does one while
CR0.PG = 0, which R35 has from general knowledge (log 11, DESIGN CHOICE). -/
def Obligations.StackPageFaults : Prop :=
  (∀ (i : Instr) (size : OperandSize) (s : State) (k : Nat) (code : ErrorCode), formSize i = some size →
    s.ModeConsistent → s.SizeConsistent size → ReachesPop s size → StackInRange s (sizeBytes size) →
    StackInSegment s (sizeBytes size) → k < sizeBytes size → (∀ j < k, stackByteMapped s j = true) →
    translateByte s (stackByteAddress s k) = .error code →
    exec i s = .fault (.pageFault code)) ∧
  (∀ (i : Instr) (s : State) (code : ErrorCode), (s.cr0.pe = false ∨ s.cr0.pg = false) →
    exec i s ≠ .fault (.pageFault code))

/-- R36, R95: where the stack is within its segment and translated, a linear address that is not a multiple of the operand's
bytes raises #AC(0) exactly when CR0.AM = 1, EFLAGS.AC = 1 before the instruction, and CPL = 3. -/
def Obligations.UnalignedStackFaults : Prop :=
  ∀ (i : Instr) (size : OperandSize) (s : State), formSize i = some size → s.ModeConsistent → s.SizeConsistent size →
    ReachesPop s size → StackInRange s (sizeBytes size) → StackInSegment s (sizeBytes size) →
    StackMapped s (sizeBytes size) →
    (exec i s = .fault (.alignmentCheck 0) ↔
      (stackLinear s s.stackPointer % sizeBytes size ≠ 0 ∧ s.cr0.am = true ∧ flag s.rflags 18 = true ∧
        s.cr0.pe = true ∧ s.cpl = 3))

/-- R90, R92, R98: the faults of an instruction are these and no others, and each only where none that goes before it in the
order of R98 applies: #UD for LOCK; #GP(0) of R66; of the stack read #SS, then #PF, then #AC(0); #GP(0) of R65.
The spec infers the places of the two #GP(0) from the Operation and takes the rest of the order from general knowledge, letting
a model choose another inner order (D7; log 13, PRESUMED). -/
def Obligations.FaultsOnlyInTheOrderOfPriority : Prop :=
  ∀ (i : Instr) (s : State) (f : Fault), exec i s = .fault f →
    (formSize i = none ∧ f = .invalidOpcode) ∨
    ∃ size, formSize i = some size ∧
      ((¬ ReachesPop s size ∧ f = .generalProtection 0) ∨
       (ReachesPop s size ∧
         ((¬ StackInSegment s (sizeBytes size) ∧ f = .stackFault (stackFaultCode s)) ∨
          (StackInSegment s (sizeBytes size) ∧
            ((¬ StackMapped s (sizeBytes size) ∧ ∃ code, f = .pageFault code) ∨
             (StackMapped s (sizeBytes size) ∧
               ((¬ StackAligned s (sizeBytes size) ∧ f = .alignmentCheck 0) ∨
                (StackReadable s (sizeBytes size) ∧ OnVmePath s ∧ TableNotes23 s ∧ f = .generalProtection 0))))))))

/-- R97: an exception absent from a mode's list is not raised in that mode. -/
def Obligations.OnlyListedFaultsInEachMode : Prop :=
  ∀ (i : Instr) (s : State) (m : OperatingMode) (f : Fault), s.operatingMode = some m → exec i s = .fault f →
    listedFault m f = true

/-- R96: the instruction never raises #GP in 64-bit mode, nor in protected, compatibility or real-address mode; in 64-bit mode
a non-canonical address of the stack read is #SS(0). That it is so whatever paging and alignment would say is the inner order
of R98 (D7; log 13, PRESUMED). -/
def Obligations.GeneralProtectionOnlyInVirtual8086 : Prop :=
  (∀ (i : Instr) (s : State) (m : OperatingMode) (code : ErrorCode), s.operatingMode = some m →
    (m = .mode64 ∨ m = .protectedMode ∨ m = .compatibilityMode ∨ m = .realAddress) →
    exec i s ≠ .fault (.generalProtection code)) ∧
  (∀ (i : Instr) (size : OperandSize) (s : State), formSize i = some size → s.operatingMode = some .mode64 → size ≠ .s32 →
    StackInRange s (sizeBytes size) → (∃ k < sizeBytes size, canonical s.env.vaBits (s.rsp.toNat + k) = false) →
    exec i s = .fault (.stackFault (some 0)))

/-- R27: a state that breaks an invariant is refused, each line of the table by itself. -/
def Obligations.InconsistentStateIsRefused : Prop :=
  ∀ (i : Instr) (size : OperandSize) (s : State), formSize i = some size →
    ((s.cr0.pe = false ∧ s.vm = true) ∨ (s.vm = true ∧ s.cpl ≠ 3) ∨ (s.vm = true ∧ s.codeMode ≠ .legacy) ∨
      (s.cr0.pe = false ∧ s.codeMode ≠ .legacy) ∨ (size = .s64 ∧ s.codeMode ≠ .bits64) ∨
      (size = .s32 ∧ s.codeMode = .bits64)) →
    exec i s = .refused .inconsistentMode

/-- R38: an access that runs past the top of the stack-pointer range is refused, whatever #SS, #PF or #AC would say; one that
ends exactly there is admitted and leaves a stack pointer of 0. The refusal is the spec's own choice (D18), its place before
#SS that of R31 (log 13, PRESUMED), and the stack pointer of 0 R38's own inference ("derived: from rule R31"). -/
def Obligations.StackPointerWrapIsRefused : Prop :=
  ∀ (i : Instr) (size : OperandSize) (s : State), formSize i = some size → s.ModeConsistent → s.SizeConsistent size →
    ReachesPop s size →
    (2 ^ s.stackAddrSize < s.stackPointer + sizeBytes size → exec i s = .refused .stackPointerWrap) ∧
    (s.stackPointer + sizeBytes size = 2 ^ s.stackAddrSize → StackReadable s (sizeBytes size) →
      IpAdvances s (instrLength i) → ¬ (OnVmePath s ∧ TableNotes23 s) →
      ∃ t, exec i s = .next t ∧ t.stackPointer = 0)

/-- R37, U16: a stack read that is translated into a device region is refused. -/
def Obligations.DeviceStackIsRefused : Prop :=
  ∀ (i : Instr) (size : OperandSize) (s : State), formSize i = some size → s.ModeConsistent → s.SizeConsistent size →
    ReachesPop s size → StackInRange s (sizeBytes size) → StackInSegment s (sizeBytes size) →
    StackMapped s (sizeBytes size) → StackAligned s (sizeBytes size) → ¬ StackOrdinary s (sizeBytes size) →
    exec i s = .refused .deviceStackRead

/-- R23, U20: where everything else would let an instruction complete and rIP would wrap past its top, it is refused. That
ending exactly at the top counts as a wrap is the model's reading (log 14, DEDUCED). -/
def Obligations.InstructionPointerWrapIsRefused : Prop :=
  ∀ (i : Instr) (size : OperandSize) (s : State), formSize i = some size → s.ModeConsistent → s.SizeConsistent size →
    ReachesPop s size → StackReadable s (sizeBytes size) → ¬ (OnVmePath s ∧ TableNotes23 s) →
    2 ^ s.ipWidth ≤ s.ip + instrLength i →
    exec i s = .refused .ipWrap

/-! The stack and the frame -/

/-- R30, R31: the image of `Pop(n)` is little-endian, bit by bit, and nothing stands above its n bytes; so a 16-bit pop sees
the low bits of what a 32-bit or 64-bit pop would, aligned or not. The new RSP holds the stack pointer plus n. -/
def Obligations.PopIsLittleEndian : Prop :=
  ∀ (s : State) (n : Nat) (p : Popped), (n = 2 ∨ n = 4 ∨ n = 8) → pop n s = .ok p →
    (∀ k < 64, p.image.getLsbD k = (decide (k < 8 * n) && imageBit s k)) ∧
    p.rsp.toNat % 2 ^ s.stackAddrSize = (s.stackPointer + n) % 2 ^ s.stackAddrSize

/-- R24, R37, R73, R74: the frame of POPF, POPFD and POPFQ. A completed instruction writes RFLAGS, the stack pointer and rIP;
every general register, the CPL, the control and segment state, every byte of memory and the program are as before. -/
def Obligations.FrameOfEveryInstruction : Prop :=
  ∀ (i : Instr) (size : OperandSize) (s t : State), formSize i = some size → exec i s = .next t →
    Kept s t ∧ Advanced s t (sizeBytes size) (instrLength i)

/-- R74: on completion rIP advances by the length, on a fault it is unchanged; the instruction transfers control in no other
way. -/
def Obligations.InstructionPointerAdvances : Prop :=
  ∀ (i : Instr) (s : State),
    (∀ t, exec i s = .next t → t.ip = s.ip + (encode i).length) ∧
    (∀ f, exec i s = .fault f → (stateAfter s (exec i s)).rip = s.rip)

/-- R7: the bytes that `MemWrite` writes are read back, and every other byte is as before. -/
def Obligations.MemWriteThenRead : Prop :=
  ∀ (m : Memory) (a n v k : Nat),
    (k < n → Memory.read (Memory.writeLittleEndian m a n v) (a + k) = BitVec.ofNat 8 (v / 2 ^ (8 * k))) ∧
    (k < a ∨ a + n ≤ k → Memory.read (Memory.writeLittleEndian m a n v) k = Memory.read m k)

/-! What has no effect -/

/-- R14: in real-address mode the CPL field has no effect. -/
def Obligations.RealAddressModeIgnoresCpl : Prop :=
  ∀ (i : Instr) (s : State) (c : Level), s.cr0.pe = false →
    exec i { s with cpl := c } = mapNext (fun t => { t with cpl := c }) (exec i s)

/-- R16: with EFLAGS.VM = 0, CR4.VME has no effect. -/
def Obligations.VmeHasNoEffectOutsideVirtual8086 : Prop :=
  ∀ (i : Instr) (s : State) (v : Bool), s.vm = false →
    exec i { s with cr4 := { vme := v, pvi := s.cr4.pvi } } =
      mapNext (fun t => { t with cr4 := { vme := v, pvi := t.cr4.pvi } }) (exec i s)

/-- R24, R71: over any number of steps, in every mode, CR4.PVI and the general registers other than the stack pointer have no
effect: a run from a state in which they differ ends alike, the next state of it differing in them alone. It is about many
steps, so it has the premise of D26 and D27: no interrupt, other agent or host acts (log 16, DESIGN CHOICE). -/
def Obligations.PviAndGeneralRegistersHaveNoEffect : Prop :=
  ∀ (n : Nat) (s : State) (g : GeneralRegisters) (pvi : Bool),
    Host.Core.run core n (s.withUnread g pvi) = mapNext (fun t => t.withUnread g pvi) (Host.Core.run core n s)

/-! Invariants -/

/-- The invariant of the machine (canonical memory and program, a mode that Table 4-15 covers by R27, the mark of R79 only
where TF is set) is kept by every step. -/
def Obligations.StepKeepsInvariant : Prop :=
  ∀ (s t : State), s.Inv → step s = .next t → t.Inv

/-- The reset state has the invariant. It is the model's choice (log 1, PRESUMED): the spec gives no reset state. -/
def Obligations.ResetHasInvariant : Prop :=
  State.reset.Inv

/-- R19, R24, R37, R68, R69: over any number of steps the operating mode, CPL, the control and segment state, the general
registers, every byte of memory, VIP, VM and the reserved bits stay as they were. It is about many steps, so it has the
premise of D26 and D27: no interrupt, other agent or host acts (log 16, DESIGN CHOICE). -/
def Obligations.RunKeepsModeMemoryAndProtectedFlags : Prop :=
  ∀ (n : Nat) (s t : State), Host.Core.run core n s = .next t →
    Kept s t ∧ t.operatingMode = s.operatingMode ∧ t.vip = s.vip ∧ t.vm = s.vm ∧
      t.rflags &&& reservedMask = s.rflags &&& reservedMask

/-- R61, R65, R70: no number of steps lets a program at CPL > 0, or in virtual-8086 mode, change IOPL, nor change IF where
IOPL < CPL (where IOPL < 3 in virtual-8086 mode). It is about many steps, so it has the premise of D26 and D27: no interrupt,
other agent or host acts (log 16, DESIGN CHOICE). -/
def Obligations.RunCannotRaisePrivilege : Prop :=
  ∀ (n : Nat) (s t : State), Host.Core.run core n s = .next t → s.cr0.pe = true → s.cpl ≠ 0 →
    t.iopl = s.iopl ∧ (s.iopl.toNat < s.cpl.toNat → flag t.rflags 9 = flag s.rflags 9)

/-! The model's choice -/

/-- The bits of RIP above the width of R23 are kept by a completed instruction. It is the model's choice (log 22, DESIGN
CHOICE): the spec says nothing of them. The statements above speak of rIP at its width alone. -/
def Obligations.RipAboveItsWidthIsKept : Prop :=
  ∀ (i : Instr) (s t : State), exec i s = .next t →
    t.ipWidth = s.ipWidth ∧ t.rip.toNat / 2 ^ s.ipWidth = s.rip.toNat / 2 ^ s.ipWidth
end

