-- ==== Sys2Proof/Laws/Flags.lean ====
section
/-! SUPPORT. The two masked updates, bit by bit, and the four masks of R61. -/

namespace Sys2Proof.Machine

/-- RF is the one bit of its mask. -/
theorem rfMask_bit (k : Nat) (hk : k < 64) : rfMask.getLsbD k = decide (k = 16) := by
  revert k; decide

/-- VIF is the one bit of its mask. -/
theorem vifMask_bit (k : Nat) (hk : k < 64) : vifMask.getLsbD k = decide (k = 19) := by
  revert k; decide

/-- R60: a bit of the mask is the image's, RF is clear, every other bit is kept. -/
theorem maskedFlags_bit (old image mask : Word64) (k : Nat) (hk : k < 64) :
    (maskedFlags old image mask).getLsbD k =
      if mask.getLsbD k = true then image.getLsbD k else if k = 16 then false else old.getLsbD k := by
  simp only [maskedFlags, BitVec.getLsbD_or, BitVec.getLsbD_and, BitVec.getLsbD_not, rfMask_bit k hk, hk]
  cases mask.getLsbD k <;> by_cases h : k = 16 <;> simp [h]

/-- R65: VIF is bit 9 of the image; the bits of the arithmetic mask are the image's; RF is clear; the rest is kept. -/
theorem vmeFlags_bit (old image : Word64) (k : Nat) (hk : k < 64) :
    (vmeFlags old image).getLsbD k =
      if k = 19 then image.getLsbD 9 else if arithNtMask.getLsbD k = true then image.getLsbD k
      else if k = 16 then false else old.getLsbD k := by
  have h19 : arithNtMask.getLsbD 19 = false := by decide
  simp only [vmeFlags, BitVec.getLsbD_or, BitVec.getLsbD_and, BitVec.getLsbD_not, rfMask_bit k hk, vifMask_bit k hk, hk,
    BitVec.getLsbD_shiftLeft, BitVec.getLsbD_ushiftRight]
  have one : ∀ j, (1 : Word64).getLsbD j = decide (j = 0) := fun j => by
    simp [BitVec.getLsbD_one]
  rw [one]
  by_cases h : k = 19
  · subst h; rw [h19]; simp
  · by_cases hlt : k < 19
    · cases arithNtMask.getLsbD k <;> by_cases h16 : k = 16 <;> simp [h, hlt, h16]
    · have : k - 19 ≠ 0 := by omega
      cases arithNtMask.getLsbD k <;> by_cases h16 : k = 16 <;> simp [h, this, h16]

/-- R61 defines a mask but in virtual-8086 mode with IOPL < 3. -/
theorem lowMask_eq_none_iff {vm pe : Bool} {cpl iopl : Level} :
    lowMask vm pe cpl iopl = none ↔ vm = true ∧ iopl ≠ 3 := by
  unfold lowMask
  split_ifs <;> simp_all

theorem writeMask_eq_none_iff {vm pe : Bool} {cpl iopl : Level} {size : OperandSize} :
    writeMask vm pe cpl iopl size = none ↔ vm = true ∧ iopl ≠ 3 := by
  rw [← lowMask_eq_none_iff (pe := pe) (cpl := cpl)]
  unfold writeMask
  split <;> simp_all

/-- The masks that R61 defines are these. -/
theorem writeMask_cases {vm pe : Bool} {cpl iopl : Level} {size : OperandSize} {mask : Word64}
    (h : writeMask vm pe cpl iopl size = some mask) :
    ∃ low, (low = 0x7FD5 ∨ low = 0x4DD5 ∨ low = 0x4FD5) ∧ mask = low ||| highMask size := by
  unfold writeMask lowMask at h
  split at h
  · rename_i low hl
    refine ⟨low, ?_, by simpa using h.symm⟩
    split_ifs at hl <;> simp only [Option.some.injEq] at hl <;> subst hl <;> decide
  · simp at h

end Sys2Proof.Machine
end

