-- ==== Sys2Proof/Laws/Memory.lean ====
section
/-! SUPPORT. The cells of memory and program: a read after a write, the canonical form that every operation keeps, and that
in canonical form equal reads are equal data. -/

namespace Sys2Proof.Machine

/-! What is found after an insertion or an erasure -/

theorem findCell_insertCell (cells : List Host.Cell) (a k : Nat) (v : Byte) :
    findCell (insertCell cells a v) k = if a = k then some v else findCell cells k := by
  induction cells with
  | nil => simp [insertCell, findCell]
  | cons c rest ih =>
    obtain ⟨x, b⟩ := c
    unfold insertCell
    split
    · simp [findCell]
    · split
      · subst_vars; simp only [findCell]; split <;> rfl
      · simp only [findCell, ih]
        split_ifs <;> simp_all

theorem findCell_eraseCell (cells : List Host.Cell) (a k : Nat) :
    findCell (eraseCell cells a) k = if a = k then none else findCell cells k := by
  induction cells with
  | nil => simp [eraseCell, findCell]
  | cons c rest ih =>
    obtain ⟨x, b⟩ := c
    unfold eraseCell
    split
    · rw [ih]; simp only [findCell]; split_ifs <;> simp_all
    · simp only [findCell, ih]; split_ifs <;> simp_all

/-- A read after a write: the written byte at its address, every other address as before. -/
theorem Memory.read_write (m : Memory) (a k : Nat) (v : Byte) :
    Memory.read (Memory.write m a v) k = if a = k then v else Memory.read m k := by
  unfold Memory.write Memory.read
  by_cases hv : v = unlistedByte
  · rw [if_pos hv, findCell_eraseCell]; split_ifs <;> simp_all
  · rw [if_neg hv, findCell_insertCell]; split_ifs <;> rfl

/-! Rising addresses -/

theorem risingFrom_mono {low low' : Nat} {cells : List Host.Cell} (hl : low' ≤ low)
    (h : risingFrom low cells = true) : risingFrom low' cells = true := by
  cases cells with
  | nil => rfl
  | cons c rest =>
    simp only [risingFrom, Bool.and_eq_true, decide_eq_true_eq] at h ⊢
    exact ⟨by omega, h.2⟩

theorem risingFrom_insertCell {low a : Nat} {v : Byte} {cells : List Host.Cell} (ha : low ≤ a)
    (h : risingFrom low cells = true) : risingFrom low (insertCell cells a v) = true := by
  induction cells generalizing low with
  | nil => simpa [insertCell, risingFrom] using ha
  | cons c rest ih =>
    obtain ⟨x, b⟩ := c
    simp only [risingFrom, Bool.and_eq_true, decide_eq_true_eq] at h
    simp only [insertCell]
    split_ifs with h1 h2
    · simp only [risingFrom, Bool.and_eq_true, decide_eq_true_eq]
      exact ⟨ha, by omega, h.2⟩
    · subst h2
      simp only [risingFrom, Bool.and_eq_true, decide_eq_true_eq]
      exact h
    · simp only [risingFrom, Bool.and_eq_true, decide_eq_true_eq]
      exact ⟨h.1, ih (by omega) h.2⟩

theorem risingFrom_eraseCell {low a : Nat} {cells : List Host.Cell}
    (h : risingFrom low cells = true) : risingFrom low (eraseCell cells a) = true := by
  induction cells generalizing low with
  | nil => rfl
  | cons c rest ih =>
    obtain ⟨x, b⟩ := c
    simp only [risingFrom, Bool.and_eq_true, decide_eq_true_eq] at h
    simp only [eraseCell]
    split_ifs
    · exact risingFrom_mono (by omega) (ih h.2)
    · simp only [risingFrom, Bool.and_eq_true, decide_eq_true_eq]
      exact ⟨h.1, ih h.2⟩

theorem mem_insertCell {cells : List Host.Cell} {a : Nat} {v : Byte} {c : Host.Cell}
    (h : c ∈ insertCell cells a v) : c = (a, v) ∨ c ∈ cells := by
  induction cells with
  | nil => simpa [insertCell] using h
  | cons d rest ih =>
    obtain ⟨x, b⟩ := d
    simp only [insertCell] at h
    split_ifs at h <;> simp only [List.mem_cons] at h ⊢
    · tauto
    · tauto
    · rcases h with h | h
      · tauto
      · have := ih h; tauto

theorem mem_eraseCell {cells : List Host.Cell} {a : Nat} {c : Host.Cell}
    (h : c ∈ eraseCell cells a) : c ∈ cells := by
  induction cells with
  | nil => exact h
  | cons d rest ih =>
    obtain ⟨x, b⟩ := d
    simp only [eraseCell] at h
    split_ifs at h
    · exact List.mem_cons_of_mem _ (ih h)
    · rcases List.mem_cons.mp h with h | h
      · simp [h]
      · exact List.mem_cons_of_mem _ (ih h)

/-! The canonical form is kept -/

theorem Memory.wf_iff (m : Memory) :
    Memory.wf m = true ↔ risingFrom 0 m = true ∧ ∀ c ∈ m, c.2 ≠ unlistedByte := by
  simp [Memory.wf]

/-- Writing a byte keeps the canonical form. -/
theorem Memory.wf_write {m : Memory} (a : Nat) (v : Byte) (h : Memory.wf m = true) :
    Memory.wf (Memory.write m a v) = true := by
  rw [Memory.wf_iff] at h ⊢
  unfold Memory.write
  split
  case isTrue => exact ⟨risingFrom_eraseCell h.1, fun c hc => h.2 c (mem_eraseCell hc)⟩
  case isFalse hv =>
    refine ⟨risingFrom_insertCell (Nat.zero_le _) h.1, fun c hc => ?_⟩
    rcases mem_insertCell hc with rfl | hc
    · exact hv
    · exact h.2 c hc

/-- Writing a run of bytes keeps the canonical form. -/
theorem Memory.wf_writeLittleEndian {m : Memory} (a n v : Nat) (h : Memory.wf m = true) :
    Memory.wf (Memory.writeLittleEndian m a n v) = true := by
  induction n generalizing m a v with
  | zero => exact h
  | succ k ih => exact ih _ _ (Memory.wf_write _ _ h)

/-- Writing program bytes keeps the program's canonical form. -/
theorem Program.wf_writeProgram {p : Program} (a : Nat) (bytes : List Byte) (h : Program.wf p = true) :
    Program.wf (writeProgram p a bytes) = true := by
  induction bytes generalizing p a with
  | nil => exact h
  | cons b rest ih => exact ih _ (risingFrom_insertCell (Nat.zero_le _) h)

/-! Equal reads are equal data -/

theorem findCell_below {low k : Nat} {cells : List Host.Cell} (h : risingFrom low cells = true) (hk : k < low) :
    findCell cells k = none := by
  induction cells generalizing low with
  | nil => rfl
  | cons c rest ih =>
    obtain ⟨x, b⟩ := c
    simp only [risingFrom, Bool.and_eq_true, decide_eq_true_eq] at h
    simp only [findCell]
    rw [if_neg (by omega), ih h.2 (by omega)]

theorem risingFrom_ext {low : Nat} {xs ys : List Host.Cell} (hx : risingFrom low xs = true)
    (hy : risingFrom low ys = true) (h : ∀ k, findCell xs k = findCell ys k) : xs = ys := by
  induction xs generalizing low ys with
  | nil =>
    cases ys with
    | nil => rfl
    | cons d _ => obtain ⟨y, b⟩ := d; simpa [findCell] using h y
  | cons c xs ih =>
    obtain ⟨x, a⟩ := c
    cases ys with
    | nil => simpa [findCell] using h x
    | cons d ys =>
      obtain ⟨y, b⟩ := d
      simp only [risingFrom, Bool.and_eq_true, decide_eq_true_eq] at hx hy
      have key : x = y ∧ a = b := by
        have h1 := h x
        have h2 := h y
        simp only [findCell] at h1 h2
        rcases lt_trichotomy x y with hlt | heq | hgt
        · rw [if_pos trivial, if_neg (by omega), findCell_below hy.2 (by omega)] at h1
          exact absurd h1 (by simp)
        · subst heq; simpa using h1
        · rw [if_pos trivial, if_neg (by omega), findCell_below hx.2 (by omega)] at h2
          exact absurd h2 (by simp)
      obtain ⟨rfl, rfl⟩ := key
      have : xs = ys := ih hx.2 hy.2 fun k => by
        by_cases hk : x = k
        · subst hk; rw [findCell_below hx.2 (by omega), findCell_below hy.2 (by omega)]
        · simpa [findCell, hk] using h k
      rw [this]

theorem findCell_mem {cells : List Host.Cell} {k : Nat} {b : Byte} (h : findCell cells k = some b) :
    (k, b) ∈ cells := by
  induction cells with
  | nil => simp [findCell] at h
  | cons c rest ih =>
    obtain ⟨x, v⟩ := c
    simp only [findCell] at h
    split_ifs at h with hx
    · simp_all
    · exact List.mem_cons_of_mem _ (ih h)

theorem Memory.findCell_of_read {m : Memory} (hm : Memory.wf m = true) (k : Nat) :
    findCell m k = if Memory.read m k = unlistedByte then none else some (Memory.read m k) := by
  rw [Memory.wf_iff] at hm
  unfold Memory.read
  cases hk : findCell m k with
  | none => simp
  | some b => simpa using hm.2 _ (findCell_mem hk)

/-- Canonical memories that read alike at every address are equal data. -/
theorem Memory.ext_of_read {m m' : Memory} (hm : Memory.wf m = true) (hm' : Memory.wf m' = true)
    (h : ∀ a, Memory.read m a = Memory.read m' a) : m = m' :=
  risingFrom_ext ((Memory.wf_iff m).1 hm).1 ((Memory.wf_iff m').1 hm').1 fun k => by
    rw [Memory.findCell_of_read hm, Memory.findCell_of_read hm', h k]

end Sys2Proof.Machine
end

