-- ==== Sys2Proof/Laws/State.lean ====
section
/-! SUPPORT. One lemma a field for each update of the state, so that no proof unfolds a record update, and what the derived
readings of the state become. -/

namespace Sys2Proof.Machine

section AfterPop

variable (s : State) (flags : Word64) (p : Popped) (n : Nat)

@[simp] theorem State.afterPop_rflags : (s.afterPop flags p n).rflags = flags := rfl
@[simp] theorem State.afterPop_rsp : (s.afterPop flags p n).rsp = p.rsp := rfl
@[simp] theorem State.afterPop_rip : (s.afterPop flags p n).rip = s.rip + BitVec.ofNat 64 n := rfl
@[simp] theorem State.afterPop_trapFlagLeft : (s.afterPop flags p n).trapFlagLeft = flag flags 8 := rfl
@[simp] theorem State.afterPop_draws : (s.afterPop flags p n).draws = p.draws := rfl
@[simp] theorem State.afterPop_gprs : (s.afterPop flags p n).gprs = s.gprs := rfl
@[simp] theorem State.afterPop_cpl : (s.afterPop flags p n).cpl = s.cpl := rfl
@[simp] theorem State.afterPop_cr0 : (s.afterPop flags p n).cr0 = s.cr0 := rfl
@[simp] theorem State.afterPop_cr4 : (s.afterPop flags p n).cr4 = s.cr4 := rfl
@[simp] theorem State.afterPop_codeMode : (s.afterPop flags p n).codeMode = s.codeMode := rfl
@[simp] theorem State.afterPop_defaultOperandSize : (s.afterPop flags p n).defaultOperandSize = s.defaultOperandSize := rfl
@[simp] theorem State.afterPop_ss : (s.afterPop flags p n).ss = s.ss := rfl
@[simp] theorem State.afterPop_mem : (s.afterPop flags p n).mem = s.mem := rfl
@[simp] theorem State.afterPop_program : (s.afterPop flags p n).program = s.program := rfl
@[simp] theorem State.afterPop_env : (s.afterPop flags p n).env = s.env := rfl
@[simp] theorem State.afterPop_stackAddrSize : (s.afterPop flags p n).stackAddrSize = s.stackAddrSize := rfl
@[simp] theorem State.afterPop_ipWidth : (s.afterPop flags p n).ipWidth = s.ipWidth := rfl
@[simp] theorem State.afterPop_decodeContext : (s.afterPop flags p n).decodeContext = s.decodeContext := rfl

end AfterPop

section WithProgram

variable (s : State) (q : Program)

@[simp] theorem State.withProgram_rflags : (s.withProgram q).rflags = s.rflags := rfl
@[simp] theorem State.withProgram_rsp : (s.withProgram q).rsp = s.rsp := rfl
@[simp] theorem State.withProgram_rip : (s.withProgram q).rip = s.rip := rfl
@[simp] theorem State.withProgram_trapFlagLeft : (s.withProgram q).trapFlagLeft = s.trapFlagLeft := rfl
@[simp] theorem State.withProgram_draws : (s.withProgram q).draws = s.draws := rfl
@[simp] theorem State.withProgram_gprs : (s.withProgram q).gprs = s.gprs := rfl
@[simp] theorem State.withProgram_cpl : (s.withProgram q).cpl = s.cpl := rfl
@[simp] theorem State.withProgram_cr0 : (s.withProgram q).cr0 = s.cr0 := rfl
@[simp] theorem State.withProgram_cr4 : (s.withProgram q).cr4 = s.cr4 := rfl
@[simp] theorem State.withProgram_codeMode : (s.withProgram q).codeMode = s.codeMode := rfl
@[simp] theorem State.withProgram_defaultOperandSize : (s.withProgram q).defaultOperandSize = s.defaultOperandSize := rfl
@[simp] theorem State.withProgram_ss : (s.withProgram q).ss = s.ss := rfl
@[simp] theorem State.withProgram_mem : (s.withProgram q).mem = s.mem := rfl
@[simp] theorem State.withProgram_program : (s.withProgram q).program = q := rfl
@[simp] theorem State.withProgram_env : (s.withProgram q).env = s.env := rfl
@[simp] theorem State.withProgram_ip : (s.withProgram q).ip = s.ip := rfl
@[simp] theorem State.withProgram_ipWidth : (s.withProgram q).ipWidth = s.ipWidth := rfl
@[simp] theorem State.withProgram_decodeContext : (s.withProgram q).decodeContext = s.decodeContext := rfl

end WithProgram

end Sys2Proof.Machine
end

