-- ==== Sys2Proof/Laws/Ops.lean ====
section
/-! SUPPORT. One lemma for each shared operation that says once everything it can do: translation of a run, the stack read,
`Pop`, completing, the two popping branches, the shared core, exec and step. -/

namespace Sys2Proof.Machine

/-! The launch's stack-segment check, by what it answers for an offset -/

theorem withinSegment_of_segment {s : State} {o : Nat} (h : stackPlace s o = .segment) :
    withinSegment s o = withinLimit s o := by
  simp only [withinSegment, h]

theorem withinSegment_of_outside {s : State} {o : Nat} (h : stackPlace s o = .outside) : withinSegment s o = false := by
  simp only [withinSegment, h]

theorem withinSegment_of_linear {s : State} {o a : Nat} (h : stackPlace s o = .linear a) : withinSegment s o = true := by
  simp only [withinSegment, h]

theorem stackLinear_of_segment {s : State} {o : Nat} (h : stackPlace s o = .segment) :
    stackLinear s o = segmentLinear s o := by
  simp only [stackLinear, h]

theorem stackLinear_of_linear {s : State} {o a : Nat} (h : stackPlace s o = .linear a) :
    stackLinear s o = a % linearSpan s := by
  simp only [stackLinear, h]

/-! The run of addresses -/

theorem linearRun_eq (s : State) (n : Nat) :
    linearRun s (stackLinear s s.stackPointer) n = (List.range n).map (stackByteAddress s) := rfl

/-- A run is translated exactly when each of its bytes is, each to its own physical address. -/
theorem translateAll_ok {s : State} {las ps : List Nat} (h : translateAll s las = .ok ps) :
    las.map (translateByte s) = ps.map Except.ok := by
  induction las generalizing ps with
  | nil => simp only [translateAll, Except.ok.injEq] at h; subst h; rfl
  | cons la rest ih =>
    simp only [translateAll] at h
    split at h
    · cases h
    · rename_i p hp
      split at h
      · cases h
      · rename_i qs hqs
        simp only [Except.ok.injEq] at h
        subst h
        simp [hp, ih hqs]

/-- A run that faults does so with the code of its first byte that faults. -/
theorem translateAll_error {s : State} {las : List Nat} {code : ErrorCode} (h : translateAll s las = .error code) :
    ∃ before la after, las = before ++ la :: after ∧ (∀ b ∈ before, ∃ p, translateByte s b = .ok p) ∧
      translateByte s la = .error code := by
  induction las with
  | nil => cases h
  | cons la rest ih =>
    simp only [translateAll] at h
    split at h
    · rename_i c hc
      simp only [Except.error.injEq] at h
      subst h
      exact ⟨[], la, rest, rfl, by simp, hc⟩
    · rename_i p hp
      split at h
      · rename_i c hc
        simp only [Except.error.injEq] at h
        subst h
        obtain ⟨before, la', after, rfl, hb, hla⟩ := ih hc
        refine ⟨la :: before, la', after, rfl, fun b hb' => ?_, hla⟩
        rcases List.mem_cons.mp hb' with rfl | hb'
        · exact ⟨p, hp⟩
        · exact hb b hb'
      · cases h

/-- Where each byte of a run is translated, so is the run. -/
theorem translateAll_of_all {s : State} {las : List Nat} (h : ∀ la ∈ las, ∃ p, translateByte s la = .ok p) :
    ∃ ps, translateAll s las = .ok ps := by
  cases hr : translateAll s las with
  | ok ps => exact ⟨ps, rfl⟩
  | error code =>
    obtain ⟨before, la, after, rfl, -, hla⟩ := translateAll_error hr
    obtain ⟨p, hp⟩ := h la (by simp)
    rw [hp] at hla
    cases hla

/-- The first byte of a run that faults gives the run's code. -/
theorem translateAll_first {s : State} {before after : List Nat} {la : Nat} {code : ErrorCode}
    (hb : ∀ b ∈ before, ∃ p, translateByte s b = .ok p) (hla : translateByte s la = .error code) :
    translateAll s (before ++ la :: after) = .error code := by
  induction before with
  | nil => simp only [List.nil_append, translateAll, hla]
  | cons b rest ih =>
    obtain ⟨p, hp⟩ := hb b (by simp)
    simp only [List.cons_append, translateAll, hp, ih fun c hc => hb c (by simp [hc])]

/-! The image -/

/-- R30: bit `k` of a little-endian value is bit `k mod 8` of byte `k div 8`. -/
theorem littleEndian_testBit (bytes : List Byte) (k : Nat) :
    (littleEndian bytes).testBit k = (bytes.getD (k / 8) 0).getLsbD (k % 8) := by
  induction bytes generalizing k with
  | nil => simp [littleEndian]
  | cons b rest ih =>
    have hb : b.toNat < 2 ^ 8 := b.isLt
    have hv : littleEndian (b :: rest) = 2 ^ 8 * littleEndian rest + b.toNat := by
      simp only [littleEndian]; omega
    rw [hv, Nat.testBit_two_pow_mul_add _ hb]
    split_ifs with hk
    · have h0 : k / 8 = 0 := by omega
      have h1 : k % 8 = k := by omega
      rw [h0, h1, List.getD_cons_zero, BitVec.testBit_toNat]
    · have h0 : k / 8 = (k - 8) / 8 + 1 := by omega
      have h1 : k % 8 = (k - 8) % 8 := by omega
      rw [ih, h0, h1, List.getD_cons_succ]

/-! `Pop` -/

theorem stackByteMapped_iff {s : State} {k : Nat} :
    stackByteMapped s k = true ↔ ∃ p, translateByte s (stackByteAddress s k) = .ok p := by
  unfold stackByteMapped
  split <;> simp_all

theorem stackAligned_iff {s : State} {n : Nat} :
    StackAligned s n ↔ alignmentFault s (stackLinear s s.stackPointer) n = false := by
  unfold StackAligned alignmentFault
  by_cases h1 : stackLinear s s.stackPointer % n = 0
  · simp [h1]
  · cases h2 : s.cr0.am <;> cases h3 : s.ac <;> by_cases h4 : s.effectiveCpl = 3 <;> simp [h1, h4]

theorem stackSegCheck_eq (s : State) (n : Nat) :
    stackSegCheck s s.stackPointer n =
      if StackInSegment s n then .ok (stackLinear s s.stackPointer) else .error (.stackFault (stackFaultCode s)) := by
  unfold stackSegCheck StackInSegment
  simp only [List.all_eq_true, List.mem_range]

/-- What a popped value is: the image bit by bit, and the RSP and draws to commit. -/
structure PoppedIs (s : State) (n : Nat) (p : Popped) : Prop where
  bit : ∀ k < 8 * n, k < 64 → p.image.getLsbD k = imageBit s k
  rsp : p.rsp = s.rspWith (s.stackPointer + n)
  draws : p.draws = s.drawsAfterPop

/-- The read of a mapped, aligned, ordinary stack gives its bytes. -/
theorem readStack_ok {s : State} {n : Nat} (hm : StackMapped s n) (ha : StackAligned s n) (ho : StackOrdinary s n) :
    readStack s (stackLinear s s.stackPointer) n = .ok ((List.range n).map (stackByte s)) := by
  obtain ⟨ps, hps⟩ : ∃ ps, translateAll s (linearRun s (stackLinear s s.stackPointer) n) = .ok ps := by
    refine translateAll_of_all fun la hla => ?_
    rw [linearRun_eq, List.mem_map] at hla
    obtain ⟨k, hk, rfl⟩ := hla
    exact stackByteMapped_iff.1 (hm k (List.mem_range.1 hk))
  have hmap := translateAll_ok hps
  have hdev : ps.any (isDevice s) = false := by
    rw [List.any_eq_false]
    intro p hp
    have : Except.ok p ∈ (linearRun s (stackLinear s s.stackPointer) n).map (translateByte s) := by
      rw [hmap]; exact List.mem_map_of_mem hp
    rw [linearRun_eq, List.map_map, List.mem_map] at this
    obtain ⟨k, hk, hkp⟩ := this
    have hko := ho k (List.mem_range.1 hk)
    simp only [stackByteOrdinary] at hko
    rw [Function.comp_apply] at hkp
    rw [hkp] at hko
    simpa using hko
  have hbytes : ps.map (fun p => Memory.read s.mem p) = (List.range n).map (stackByte s) := by
    have : ps.map (fun p => Memory.read s.mem p) =
        (ps.map (Except.ok (ε := ErrorCode))).map
          (fun r => match r with | .ok p => Memory.read s.mem p | .error _ => 0) := by
      rw [List.map_map]; rfl
    rw [this, ← hmap, linearRun_eq, List.map_map, List.map_map]
    rfl
  unfold readStack
  rw [hps]
  simp only [stackAligned_iff.1 ha, Bool.false_eq_true, if_false, readOrdinary, hdev, hbytes]

theorem poppedIs_of_bytes (s : State) (n : Nat) :
    PoppedIs s n
      { image := BitVec.ofNat 64 (littleEndian ((List.range n).map (stackByte s)))
        rsp := s.rspWith (s.stackPointer + n)
        draws := s.drawsAfterPop } where
  bit k hk h64 := by
    have hn : k / 8 < n := by omega
    simp only [BitVec.getLsbD_ofNat, h64, decide_true, Bool.true_and, littleEndian_testBit, imageBit,
      List.getD_eq_getElem?_getD, List.getElem?_map]
    rw [List.getElem?_range hn]
    rfl
  rsp := rfl
  draws := rfl

/-- R31: a readable stack is popped. -/
theorem pop_of_readable {s : State} {n : Nat} (h : StackReadable s n) : ∃ p, pop n s = .ok p ∧ PoppedIs s n p := by
  obtain ⟨hr, hs, hm, ha, ho⟩ := h
  refine ⟨_, ?_, poppedIs_of_bytes s n⟩
  unfold pop
  rw [if_neg (by simpa using hr), stackSegCheck_eq, if_pos hs]
  simp only [readStack_ok hm ha ho]

/-- What ends a `Pop`, each with its condition. -/
inductive PopStops (s : State) (n : Nat) : Stop → Prop
  | wrap : ¬ StackInRange s n → PopStops s n (.refuse .stackPointerWrap)
  | segment : StackInRange s n → ¬ StackInSegment s n → PopStops s n (.fault (.stackFault (stackFaultCode s)))
  | page (k : Nat) (code : ErrorCode) : StackInRange s n → StackInSegment s n → k < n →
      (∀ j < k, stackByteMapped s j = true) → translateByte s (stackByteAddress s k) = .error code →
      PopStops s n (.fault (.pageFault code))
  | align : StackInRange s n → StackInSegment s n → StackMapped s n → ¬ StackAligned s n →
      PopStops s n (.fault (.alignmentCheck 0))
  | device : StackInRange s n → StackInSegment s n → StackMapped s n → StackAligned s n → ¬ StackOrdinary s n →
      PopStops s n (.refuse .deviceStackRead)

/-- Splitting a mapped range at an element. -/
theorem range_map_split {f : Nat → Nat} {n : Nat} {before after : List Nat} {la : Nat}
    (h : (List.range n).map f = before ++ la :: after) :
    before.length < n ∧ la = f before.length ∧ before = (List.range before.length).map f := by
  have hlen : n = before.length + (after.length + 1) := by simpa using congrArg List.length h
  have hlt : before.length < n := by omega
  refine ⟨hlt, ?_, ?_⟩
  · have := congrArg (fun l => l[before.length]?) h
    simpa [List.getElem?_map, List.getElem?_range hlt, eq_comm] using this
  · have := congrArg (List.take before.length) h
    rw [← List.map_take, List.take_range, Nat.min_eq_left (by omega)] at this
    simpa using this.symm

/-- `Pop` gives the popped value of a readable stack, or stops for one of five reasons. -/
theorem pop_cases (s : State) (n : Nat) :
    (∃ p, pop n s = .ok p ∧ StackReadable s n ∧ PoppedIs s n p) ∨ (∃ e, pop n s = .error e ∧ PopStops s n e) := by
  by_cases hr : StackInRange s n
  case neg => exact .inr ⟨_, by unfold pop; rw [if_pos (by simpa using hr)], .wrap hr⟩
  have hnr : ¬ 2 ^ s.stackAddrSize < s.stackPointer + n := by simpa using hr
  by_cases hs : StackInSegment s n
  case neg =>
    exact .inr ⟨_, by unfold pop; rw [if_neg hnr, stackSegCheck_eq, if_neg hs], .segment hr hs⟩
  by_cases hm : StackMapped s n
  case neg =>
    cases ht : translateAll s (linearRun s (stackLinear s s.stackPointer) n) with
    | ok ps =>
      exfalso
      refine hm fun k hk => stackByteMapped_iff.2 ?_
      have hmem : translateByte s (stackByteAddress s k) ∈
          (linearRun s (stackLinear s s.stackPointer) n).map (translateByte s) :=
        List.mem_map_of_mem (List.mem_map_of_mem (List.mem_range.2 hk))
      rw [translateAll_ok ht, List.mem_map] at hmem
      obtain ⟨p, -, hp⟩ := hmem
      exact ⟨p, hp.symm⟩
    | error code =>
      obtain ⟨before, la, after, hsplit, hb, hla⟩ := translateAll_error ht
      rw [linearRun_eq] at hsplit
      obtain ⟨hlt, hlaeq, hbefore⟩ := range_map_split hsplit
      refine .inr ⟨.fault (.pageFault code), ?_, .page before.length code hr hs hlt (fun j hj => ?_) (by rwa [← hlaeq])⟩
      · unfold pop readStack
        rw [if_neg hnr, stackSegCheck_eq, if_pos hs]
        simp only [ht]
      · exact stackByteMapped_iff.2 (hb _ (by
          rw [hbefore]; exact List.mem_map_of_mem (List.mem_range.2 hj)))
  by_cases ha : StackAligned s n
  case neg =>
    obtain ⟨ps, hps⟩ : ∃ ps, translateAll s (linearRun s (stackLinear s s.stackPointer) n) = .ok ps := by
      refine translateAll_of_all fun la hla => ?_
      rw [linearRun_eq, List.mem_map] at hla
      obtain ⟨k, hk, rfl⟩ := hla
      exact stackByteMapped_iff.1 (hm k (List.mem_range.1 hk))
    have hf : alignmentFault s (stackLinear s s.stackPointer) n = true := by
      rw [stackAligned_iff] at ha; simpa using ha
    refine .inr ⟨_, ?_, .align hr hs hm ha⟩
    unfold pop readStack
    rw [if_neg hnr, stackSegCheck_eq, if_pos hs]
    simp only [hps, hf, if_true]
  by_cases ho : StackOrdinary s n
  case neg =>
    obtain ⟨ps, hps⟩ : ∃ ps, translateAll s (linearRun s (stackLinear s s.stackPointer) n) = .ok ps := by
      refine translateAll_of_all fun la hla => ?_
      rw [linearRun_eq, List.mem_map] at hla
      obtain ⟨k, hk, rfl⟩ := hla
      exact stackByteMapped_iff.1 (hm k (List.mem_range.1 hk))
    have hdev : ps.any (isDevice s) = true := by
      by_contra hnd
      refine ho fun k hk => ?_
      unfold stackByteOrdinary
      split
      · rename_i p hp
        have hmem : translateByte s (stackByteAddress s k) ∈
            (linearRun s (stackLinear s s.stackPointer) n).map (translateByte s) :=
          List.mem_map_of_mem (List.mem_map_of_mem (List.mem_range.2 hk))
        rw [translateAll_ok hps, hp, List.mem_map] at hmem
        obtain ⟨q, hq, hqp⟩ := hmem
        cases hqp
        simp only [List.any_eq_true, not_exists, not_and, Bool.not_eq_true] at hnd
        simp [hnd p hq]
      · rfl
    refine .inr ⟨_, ?_, .device hr hs hm ha ho⟩
    unfold pop readStack
    rw [if_neg hnr, stackSegCheck_eq, if_pos hs]
    simp only [hps, stackAligned_iff.1 ha, Bool.false_eq_true, if_false, readOrdinary, hdev, if_true]
  obtain ⟨p, hp, his⟩ := pop_of_readable (s := s) (n := n) ⟨hr, hs, hm, ha, ho⟩
  exact .inl ⟨p, hp, ⟨hr, hs, hm, ha, ho⟩, his⟩

/-! Completing -/

theorem complete_of_advances {s : State} {flags : Word64} {p : Popped} {n : Nat} (h : IpAdvances s n) :
    complete s flags p n = .next (s.afterPop flags p n) := by
  unfold complete
  rw [if_pos h]

theorem complete_next {s t : State} {flags : Word64} {p : Popped} {n : Nat} (h : complete s flags p n = .next t) :
    IpAdvances s n ∧ t = s.afterPop flags p n := by
  unfold complete at h
  split at h
  · rename_i hip
    cases h
    exact ⟨hip, rfl⟩
  · cases h

theorem complete_ne_fault {s : State} {flags : Word64} {p : Popped} {n : Nat} {f : Fault} :
    complete s flags p n ≠ .fault f := by
  unfold complete
  split <;> simp

/-- The frame of completing. -/
theorem kept_afterPop (s : State) (flags : Word64) (p : Popped) (n : Nat) : Kept s (s.afterPop flags p n) where
  gprs := rfl
  cpl := rfl
  cr0 := rfl
  cr4 := rfl
  codeMode := rfl
  defaultOperandSize := rfl
  ss := rfl
  mem := rfl
  bytes _ := rfl
  program := rfl
  env := rfl

/-- R73: the stack pointer read back from the RSP to commit. -/
theorem rspWith_stackPointer (s : State) (v : Nat) : (s.rspWith v).toNat % 2 ^ s.stackAddrSize = v % 2 ^ s.stackAddrSize := by
  unfold State.rspWith State.stackAddrSize
  split
  · simp [*]
  · have h : (Config.freeRspHigh s.draws ++ BitVec.ofNat 32 v : Word64).toNat % 2 ^ 32 = v % 2 ^ 32 := by
      rw [BitVec.toNat_append, ← Nat.shiftLeft_add_eq_or_of_lt (BitVec.isLt _), Nat.shiftLeft_eq,
        BitVec.toNat_ofNat]
      omega
    exact h
  · have h : (s.rsp.extractLsb' 16 48 ++ BitVec.ofNat 16 v : Word64).toNat % 2 ^ 16 = v % 2 ^ 16 := by
      rw [BitVec.toNat_append, ← Nat.shiftLeft_add_eq_or_of_lt (BitVec.isLt _), Nat.shiftLeft_eq,
        BitVec.toNat_ofNat]
      omega
    exact h

/-- R74: where rIP does not wrap, completing moves it by the length and keeps the bits above its width. -/
theorem afterPop_ip {s : State} {n : Nat} (flags : Word64) (p : Popped) (h : IpAdvances s n) :
    (s.afterPop flags p n).ip = s.ip + n ∧
      (s.afterPop flags p n).rip.toNat / 2 ^ s.ipWidth = s.rip.toNat / 2 ^ s.ipWidth := by
  have hw : (2 : Nat) ^ s.ipWidth ∣ 2 ^ 64 := Nat.pow_dvd_pow 2 (by unfold State.ipWidth; split <;> omega)
  obtain ⟨c, hc⟩ := hw
  have hlt := s.rip.isLt
  have hd := Nat.div_add_mod s.rip.toNat (2 ^ s.ipWidth)
  have hq : s.rip.toNat / 2 ^ s.ipWidth < c := Nat.div_lt_of_lt_mul (by omega)
  have hm : 2 ^ s.ipWidth * (s.rip.toNat / 2 ^ s.ipWidth + 1) ≤ 2 ^ s.ipWidth * c := Nat.mul_le_mul_left _ hq
  have hi : s.rip.toNat % 2 ^ s.ipWidth + n < 2 ^ s.ipWidth := h
  have hn : (s.rip + BitVec.ofNat 64 n).toNat = s.rip.toNat + n := by
    rw [BitVec.toNat_add, BitVec.toNat_ofNat, Nat.add_mod_mod]
    exact Nat.mod_eq_of_lt (by rw [Nat.mul_add] at hm; omega)
  have he : s.rip.toNat + n = (s.rip.toNat % 2 ^ s.ipWidth + n) + 2 ^ s.ipWidth * (s.rip.toNat / 2 ^ s.ipWidth) := by omega
  constructor
  · change (s.rip + BitVec.ofNat 64 n).toNat % 2 ^ s.ipWidth = s.rip.toNat % 2 ^ s.ipWidth + n
    rw [hn, he, Nat.add_mul_mod_self_left, Nat.mod_eq_of_lt hi]
  · change (s.rip + BitVec.ofNat 64 n).toNat / 2 ^ s.ipWidth = _
    rw [hn, he, Nat.add_mul_div_left _ _ (by positivity), Nat.div_eq_of_lt hi, Nat.zero_add]

/-- R73, R74: completing with a popped value moves the stack pointer and rIP. -/
theorem advanced_afterPop {s : State} {n m : Nat} {p : Popped} (flags : Word64) (h : PoppedIs s n p)
    (hi : IpAdvances s m) : Advanced s (s.afterPop flags p m) n m where
  stackPointer := by
    rw [← rspWith_stackPointer, ← h.rsp]
    rfl
  rspAbove h16 := by
    simp only [State.afterPop_rsp, h.rsp]
    unfold State.rspWith
    unfold State.stackAddrSize at h16
    split at h16 <;> simp_all
    apply BitVec.eq_of_getLsbD_eq
    intro i hi
    rw [BitVec.getLsbD_extractLsb', BitVec.getLsbD_append, if_neg (by omega)]
    simp [hi]
  ip := (afterPop_ip flags p hi).1

/-! Stops of `Pop` exclude one another -/

theorem PopStops.not_readable {s : State} {n : Nat} {e : Stop} (h : PopStops s n e) : ¬ StackReadable s n := by
  rintro ⟨hr, hs, hm, ha, ho⟩
  cases h with
  | wrap h => exact h hr
  | segment _ h => exact h hs
  | page k code _ _ hk _ ht =>
    obtain ⟨p, hp⟩ := stackByteMapped_iff.1 (hm k hk)
    rw [hp] at ht
    cases ht
  | align _ _ _ h => exact h ha
  | device _ _ _ _ h => exact h ho

theorem not_mapped_of_error {s : State} {k : Nat} {code : ErrorCode} (ht : translateByte s (stackByteAddress s k) = .error code) :
    ¬ stackByteMapped s k = true := by
  rw [stackByteMapped_iff]
  rintro ⟨p, hp⟩
  rw [hp] at ht
  cases ht

theorem PopStops.unique {s : State} {n : Nat} {e e' : Stop} (h : PopStops s n e) (h' : PopStops s n e') : e = e' := by
  have page_unmapped : ∀ {k : Nat} {code : ErrorCode}, k < n → translateByte s (stackByteAddress s k) = .error code →
      ¬ StackMapped s n := fun hk ht hm => not_mapped_of_error ht (hm _ hk)
  cases h <;> cases h' <;> first | rfl | contradiction | (exfalso; exact page_unmapped ‹_› ‹_› ‹_›) | skip
  rename_i k code hr hs hk hb ht k' code' hk' hb' ht' hb2 ht2
  rcases lt_trichotomy k k' with hlt | rfl | hgt
  · exact absurd (hb2 k hlt) (not_mapped_of_error ht)
  · rw [ht] at ht2; cases ht2; rfl
  · exact absurd (hb k' hgt) (not_mapped_of_error ht2)

/-- `Pop` stops for the reason whose condition holds. -/
theorem pop_of_stops {s : State} {n : Nat} {e : Stop} (h : PopStops s n e) : pop n s = .error e := by
  rcases pop_cases s n with ⟨p, -, hr, -⟩ | ⟨e', he', hs'⟩
  · exact absurd hr h.not_readable
  · rw [he', hs'.unique h]

/-! The core -/

/-- The three forms run the shared core at their operand size. -/
theorem exec_of_formSize {i : Instr} {size : OperandSize} (h : formSize i = some size) (s : State) :
    exec i s = execSized size (instrLength i) s := by
  cases i <;> simp only [formSize, Option.some.injEq, reduceCtorEq] at h <;> subst h <;> rfl

/-- Every form but the illegal one has an operand size. -/
theorem exec_of_formSize_none {i : Instr} (h : formSize i = none) (s : State) : exec i s = .fault .invalidOpcode := by
  cases i <;> simp only [formSize, reduceCtorEq] at h
  rfl

/-- R60: the core, in a consistent state in which a mask is defined. -/
theorem execSized_masked {s : State} {size : OperandSize} {mask : Word64} (n : Nat) (hc : s.ModeConsistent)
    (hz : s.SizeConsistent size) (hm : writeMask s.vm s.cr0.pe s.effectiveCpl s.iopl size = some mask) :
    execSized size n s = popMasked size mask n s := by
  unfold execSized
  rw [if_pos ⟨hc, hz⟩, hm]

/-- R60: the core on the path of the virtual-8086 mode extensions. -/
theorem execSized_vme {s : State} (n : Nat) (hc : s.ModeConsistent) (hv : OnVmePath s) :
    execSized .s16 n s = popVme n s := by
  have hn := writeMask_eq_none_iff (pe := s.cr0.pe) (cpl := s.effectiveCpl) (size := .s16) |>.2 ⟨hv.1, hv.2.2⟩
  unfold execSized
  rw [if_pos ⟨hc, ⟨nofun, nofun⟩⟩, hn]
  simp [hv.2.1]

/-- R66: the core where it raises before any stack access. -/
theorem execSized_early {s : State} {size : OperandSize} (n : Nat) (hc : s.ModeConsistent) (hz : s.SizeConsistent size)
    (hv : s.vm = true) (hi : s.iopl ≠ 3) (h : size = .s32 ∨ s.cr4.vme = false) :
    execSized size n s = .fault (.generalProtection 0) := by
  have hn := writeMask_eq_none_iff (pe := s.cr0.pe) (cpl := s.effectiveCpl) (size := size) |>.2 ⟨hv, hi⟩
  unfold execSized
  rw [if_pos ⟨hc, hz⟩, hn]
  simp [h, raise]

/-- Everything the core can do when it answers a next state. -/
theorem execSized_next {s t : State} {size : OperandSize} {n : Nat} (h : execSized size n s = .next t) :
    s.ModeConsistent ∧ s.SizeConsistent size ∧ StackReadable s (sizeBytes size) ∧ IpAdvances s n ∧
    ∃ p flags, PoppedIs s (sizeBytes size) p ∧ t = s.afterPop flags p n ∧
      ((∃ mask, writeMask s.vm s.cr0.pe s.effectiveCpl s.iopl size = some mask ∧
          flags = maskedFlags s.rflags p.image mask) ∨
        (OnVmePath s ∧ size = .s16 ∧ vmeImageFaults s.vip p.image = false ∧ flags = vmeFlags s.rflags p.image)) := by
  unfold execSized at h
  split at h
  case isFalse => cases h
  case isTrue hc =>
    split at h
    · rename_i mask hm
      unfold popMasked at h
      rcases pop_cases s (sizeBytes size) with ⟨p, hp, hr, his⟩ | ⟨e, he, -⟩
      · rw [hp] at h
        obtain ⟨hip, rfl⟩ := complete_next h
        exact ⟨hc.1, hc.2, hr, hip, p, _, his, rfl, .inl ⟨mask, hm, rfl⟩⟩
      · rw [he] at h
        cases e <;> cases h
    · rename_i hm
      obtain ⟨hvm, hio⟩ := writeMask_eq_none_iff.1 hm
      split at h
      case isTrue => cases h
      case isFalse hx =>
        have hsz : size = .s16 := by
          cases size with
          | s16 => rfl
          | s32 => simp at hx
          | s64 =>
            have := hc.1.2.2.1 hvm
            have := hc.2.1 rfl
            simp_all
        subst hsz
        unfold popVme at h
        rcases pop_cases s (sizeBytes .s16) with ⟨p, hp, hr, his⟩ | ⟨e, he, -⟩
        · rw [hp] at h
          dsimp only at h
          split at h
          · cases h
          · rename_i hf
            obtain ⟨hip, rfl⟩ := complete_next h
            exact ⟨hc.1, hc.2, hr, hip, p, _, his, rfl, .inr ⟨⟨hvm, by simpa using hx, hio⟩, rfl, by simpa using hf, rfl⟩⟩
        · rw [he] at h
          cases e <;> cases h

/-- Everything an instruction does when it answers a next state. -/
theorem exec_next {i : Instr} {s t : State} (h : exec i s = .next t) :
    ∃ size, formSize i = some size ∧ execSized size (instrLength i) s = .next t := by
  cases hf : formSize i with
  | none => rw [exec_of_formSize_none hf] at h; cases h
  | some size => exact ⟨size, rfl, by rw [← exec_of_formSize hf, h]⟩

/-- The frame of every instruction. -/
theorem exec_kept {i : Instr} {s t : State} (h : exec i s = .next t) : Kept s t := by
  obtain ⟨size, -, h⟩ := exec_next h
  obtain ⟨-, -, -, -, p, flags, -, rfl, -⟩ := execSized_next h
  exact kept_afterPop s flags p _

/-! Step -/

/-- Everything a step does when it answers a next state. -/
theorem step_next {s t : State} (h : step s = .next t) : s.trapFlagLeft = false ∧ ∃ i, fetch s = .ok i ∧ exec i s = .next t := by
  unfold step at h
  split at h
  · cases h
  · split at h
    · cases h
    · rename_i i hi
      exact ⟨by simp_all, i, hi, h⟩

end Sys2Proof.Machine
end

