-- ==== Sys2Proof/Laws/PerInstr.lean ====
section
/-! SUPPORT. A statement about each instruction as syntax: its encoding ends with the opcode byte and holds it once, and is one
to three bytes long (spec 30_encoding.md R45, R53). -/

namespace Sys2Proof.Laws

def Encoding.Statement (i : Instr) : Prop :=
  (encode i).getLast? = some opcodeByte ∧ (encode i).count opcodeByte = 1 ∧ 1 ≤ instrLength i ∧ instrLength i ≤ maxLength

theorem Encoding.popf (p : OpSizePrefix) : Encoding.Statement (.popf p) := by
  cases p <;> (unfold Encoding.Statement; decide)

theorem Encoding.popfd (p : OpSizePrefix) : Encoding.Statement (.popfd p) := by
  cases p <;> (unfold Encoding.Statement; decide)

theorem Encoding.popfq : Encoding.Statement .popfq := by
  unfold Encoding.Statement
  decide

theorem Encoding.lockPopf (f : LockForm) : Encoding.Statement (.lockPopf f) := by
  cases f <;> (unfold Encoding.Statement; decide)

end Sys2Proof.Laws
end

