-- ==== Sys2Proof/Laws/Popf.lean ====
section
/-! SUPPORT. What the core does in the terms of Safety.lean: which mask applies, the flags of a next state bit by bit, and the
faults with their conditions. -/

namespace Sys2Proof.Machine

/-- Every bit of a mask is one that the operand size pops. -/
theorem writeMask_bit_lt {low : Word64} {size : OperandSize} (hl : low = 0x7FD5 ∨ low = 0x4DD5 ∨ low = 0x4FD5) {k : Nat}
    (h : (low ||| highMask size).getLsbD k = true) : k < 8 * sizeBytes size := by
  have h64 : k < 64 := by
    by_contra hn
    rw [BitVec.getLsbD_of_ge _ _ (by omega)] at h
    cases h
  revert h
  revert k
  rcases hl with rfl | rfl | rfl <;> cases size <;> decide

/-- R60: the masked update in terms of the bits of the stack. -/
theorem flagsTaken_maskedFlags {s : State} {p : Popped} {mask : Word64} {size : OperandSize}
    (hp : PoppedIs s (sizeBytes size) p) (hm : ∀ k, mask.getLsbD k = true → k < 8 * sizeBytes size) :
    FlagsTaken s mask (maskedFlags s.rflags p.image mask) := by
  intro k hk
  rw [maskedFlags_bit _ _ _ _ hk]
  split
  · rename_i h
    exact hp.bit k (hm k h) hk
  · rfl

/-- R65: the update of the extensions in terms of the bits of the stack. -/
theorem vmeFlags_imageBit {s : State} {p : Popped} (h : PoppedIs s 2 p) {k : Nat} (hk : k < 64) :
    (vmeFlags s.rflags p.image).getLsbD k =
      if k = 19 then imageBit s 9 else if (0x4DD5 : Word64).getLsbD k = true then imageBit s k
      else if k = 16 then false else s.rflags.getLsbD k := by
  rw [vmeFlags_bit _ _ _ hk, h.bit 9 (by omega) (by omega)]
  split
  · rfl
  · unfold arithNtMask
    split
    · rename_i hm
      refine h.bit k ?_ hk
      revert hm
      revert k
      decide
    · rfl

/-- R65: the images that fault, in terms of the bits of the stack. -/
theorem vmeImageFaults_iff {s : State} {p : Popped} {n : Nat} (hn : 2 ≤ n) (h : PoppedIs s n p) :
    vmeImageFaults s.vip p.image = true ↔ TableNotes23 s := by
  simp only [vmeImageFaults, flag, TableNotes23, h.bit 9 (by omega) (by omega), h.bit 8 (by omega) (by omega),
    Bool.or_eq_true, Bool.and_eq_true]

/-- A mask is not defined on the path of the extensions. -/
theorem not_onVmePath_of_lowMask {s : State} {low : Word64}
    (hl : lowMask s.vm s.cr0.pe s.effectiveCpl s.iopl = some low) : ¬ OnVmePath s := by
  rintro ⟨a, -, c⟩
  rw [lowMask_eq_none_iff.2 ⟨a, c⟩] at hl
  cases hl

/-- R61: which mask applies, by the levels alone, in a consistent state. -/
theorem lowMask_levels {s : State} {low : Word64} (hc : s.ModeConsistent)
    (hl : lowMask s.vm s.cr0.pe s.effectiveCpl s.iopl = some low) :
    (s.effectiveCpl = 0 ∧ low = 0x7FD5) ∨
    (s.effectiveCpl ≠ 0 ∧ s.iopl.toNat < s.effectiveCpl.toNat ∧ low = 0x4DD5) ∨
    (s.effectiveCpl ≠ 0 ∧ s.effectiveCpl.toNat ≤ s.iopl.toNat ∧ low = 0x4FD5) := by
  unfold lowMask at hl
  obtain ⟨h1, h2, -, -⟩ := hc
  split_ifs at hl with a b c d
  · cases hl
    refine .inl ⟨?_, rfl⟩
    rcases b with b | b
    · simp [State.effectiveCpl, b]
    · exact b
  · cases hl
    simp only [not_or] at b
    exact .inr (.inl ⟨b.2, by simpa [BitVec.lt_def] using c, rfl⟩)
  · cases hl
    simp only [not_or] at b
    exact .inr (.inr ⟨b.2, by simpa [BitVec.lt_def] using c, rfl⟩)
  · cases hl
    have hv : s.vm = true := by simpa using a
    have hpe : s.cr0.pe = true := by
      by_contra hn
      have := h1 (by simpa using hn)
      simp_all
    have h3 : s.effectiveCpl = 3 := by simp [State.effectiveCpl, hpe, h2 hv]
    rw [h3, d]
    decide

/-- The flags of a next state, bit by bit: those of a mask, or those of the extensions. -/
theorem exec_next_flags {i : Instr} {s t : State} (h : exec i s = .next t) :
    ∃ size, formSize i = some size ∧
      ((∃ low, lowMask s.vm s.cr0.pe s.effectiveCpl s.iopl = some low ∧
          (low = 0x7FD5 ∨ low = 0x4DD5 ∨ low = 0x4FD5) ∧ FlagsTaken s (low ||| highMask size) t.rflags) ∨
        (OnVmePath s ∧ size = .s16 ∧ ¬ TableNotes23 s ∧
          ∀ k < 64, t.rflags.getLsbD k =
            if k = 19 then imageBit s 9 else if (0x4DD5 : Word64).getLsbD k = true then imageBit s k
            else if k = 16 then false else s.rflags.getLsbD k)) := by
  obtain ⟨size, hf, h⟩ := exec_next h
  obtain ⟨-, -, -, -, p, flags, his, rfl, hcase⟩ := execSized_next h
  refine ⟨size, hf, ?_⟩
  rcases hcase with ⟨m, hm, rfl⟩ | ⟨hv, rfl, hn, rfl⟩
  · left
    unfold writeMask at hm
    split at hm
    · rename_i low hl
      cases hm
      have hlow : low = 0x7FD5 ∨ low = 0x4DD5 ∨ low = 0x4FD5 := by
        unfold lowMask at hl
        split_ifs at hl <;> cases hl <;> decide
      exact ⟨low, hl, hlow, flagsTaken_maskedFlags his fun k => writeMask_bit_lt hlow⟩
    · cases hm
  · right
    refine ⟨hv, rfl, ?_, fun k hk => vmeFlags_imageBit his hk⟩
    rw [← vmeImageFaults_iff (n := 2) (by omega) his]
    simp [hn]

/-- The core where it reaches its pop and the pop stops. -/
theorem execSized_of_pop_error {s : State} {size : OperandSize} {n : Nat} {e : Stop} (hc : s.ModeConsistent)
    (hz : s.SizeConsistent size) (hrp : ReachesPop s size) (h : pop (sizeBytes size) s = .error e) :
    execSized size n s = stopWith e := by
  cases hm : writeMask s.vm s.cr0.pe s.effectiveCpl s.iopl size with
  | some m =>
    rw [execSized_masked _ hc hz hm]
    unfold popMasked
    rw [h]
  | none =>
    obtain ⟨a, b⟩ := writeMask_eq_none_iff.1 hm
    rcases hrp with h1 | h1 | ⟨rfl, h1⟩
    · simp_all
    · exact absurd h1 b
    · rw [execSized_vme _ hc ⟨a, h1, b⟩]
      unfold popVme
      rw [h]

/-- Everything the core can do when it answers a fault in a consistent state. -/
theorem execSized_fault {s : State} {size : OperandSize} {n : Nat} {f : Fault} (hc : s.ModeConsistent)
    (hz : s.SizeConsistent size) (h : execSized size n s = .fault f) :
    (¬ ReachesPop s size ∧ f = .generalProtection 0) ∨
    (ReachesPop s size ∧ (PopStops s (sizeBytes size) (.fault f) ∨
      (StackReadable s (sizeBytes size) ∧ OnVmePath s ∧ TableNotes23 s ∧ f = .generalProtection 0))) := by
  have h2 : 2 ≤ sizeBytes size := by cases size <;> decide
  by_cases hrp : ReachesPop s size
  · refine .inr ⟨hrp, ?_⟩
    rcases pop_cases s (sizeBytes size) with ⟨p, hp, hr, his⟩ | ⟨e, he, hs⟩
    · right
      cases hm : writeMask s.vm s.cr0.pe s.effectiveCpl s.iopl size with
      | some m =>
        rw [execSized_masked _ hc hz hm] at h
        unfold popMasked at h
        rw [hp] at h
        exact absurd h complete_ne_fault
      | none =>
        obtain ⟨a, b⟩ := writeMask_eq_none_iff.1 hm
        rcases hrp with h1 | h1 | ⟨rfl, h1⟩
        · simp_all
        · exact absurd h1 b
        · rw [execSized_vme _ hc ⟨a, h1, b⟩] at h
          unfold popVme at h
          rw [hp] at h
          dsimp only at h
          split at h
          · rename_i hn
            rw [vmeImageFaults_iff h2 his] at hn
            refine ⟨hr, ⟨a, h1, b⟩, hn, ?_⟩
            cases h
            rfl
          · exact absurd h complete_ne_fault
    · left
      rw [execSized_of_pop_error hc hz hrp he] at h
      cases e with
      | fault g =>
        cases h
        exact hs
      | refuse r => cases h
  · refine .inl ⟨hrp, ?_⟩
    simp only [ReachesPop, not_or, not_and] at hrp
    have hv : s.vm = true := by simpa using hrp.1
    rw [execSized_early _ hc hz hv hrp.2.1] at h
    · cases h
      rfl
    · cases size with
      | s32 => simp
      | s16 =>
        right
        simpa using hrp.2.2
      | s64 =>
        have := hz.1 rfl
        have := hc.2.2.1 hv
        simp_all

end Sys2Proof.Machine
end

