-- ==== Sys2Proof/Laws/Run.lean ====
section
/-! SUPPORT. Runs of the machine: one equation for each outcome of the first step, and the induction over a run, packaged
once. -/

namespace Sys2Proof.Machine

/-- The first step of a run, for any machine. -/
theorem run_succ_of_next (M : Host.Core) {n : Nat} {s u : M.State} (h : M.step s = .next u) :
    Host.Core.run M (n + 1) s = Host.Core.run M n u := by
  rw [Host.Core.run, h]

theorem run_succ_of_fault (M : Host.Core) {n : Nat} {s : M.State} {f : M.Fault} (h : M.step s = .fault f) :
    Host.Core.run M (n + 1) s = .fault f := by
  rw [Host.Core.run, h]

theorem run_succ_of_refused (M : Host.Core) {n : Nat} {s : M.State} {r : M.Refusal} (h : M.step s = .refused r) :
    Host.Core.run M (n + 1) s = .refused r := by
  rw [Host.Core.run, h]

theorem run_of_next {n : Nat} {s u : State} (h : step s = .next u) :
    Host.Core.run core (n + 1) s = Host.Core.run core n u :=
  run_succ_of_next core h

theorem run_of_fault {n : Nat} {s : State} {f : Fault} (h : step s = .fault f) :
    Host.Core.run core (n + 1) s = .fault f :=
  run_succ_of_fault core h

theorem run_of_refused {n : Nat} {s : State} {r : Refusal} (h : step s = .refused r) :
    Host.Core.run core (n + 1) s = .refused r :=
  run_succ_of_refused core h

/-- A relation between the first and the last state of a run: it holds of no step, and a step before a run keeps it. -/
theorem run_induction {P : State → State → Prop} (refl : ∀ s, P s s)
    (cons : ∀ s u t, step s = .next u → P u t → P s t) {n : Nat} {s t : State}
    (h : Host.Core.run core n s = .next t) : P s t := by
  induction n generalizing s with
  | zero =>
    cases h
    exact refl _
  | succ n ih =>
    cases hs : step s with
    | next u => exact cons _ u t hs (ih (by rw [← run_of_next hs]; exact h))
    | fault f => rw [run_of_fault hs] at h; cases h
    | refused r => rw [run_of_refused hs] at h; cases h

end Sys2Proof.Machine
end

