-- ==== Sys2Proof/Tests/Slice0.lean ====
section
/-! SUPPORT. The model's own tests. Expected results are the vectors of spec/95_test_vectors.md, whose numbers the names carry,
and the cells of its tables; then a witness for the hypotheses of every obligation. -/

namespace Sys2Proof.Tests

open Sys2Proof.Machine

/-! States to test on -/

/-- A small state: a flat stack with the image at 0x2000, rIP at 0x100, alignment checking and paging off. -/
def small (mode : CodeMode) (pe : Bool) (cpl : Level) (vme : Bool) (flags : Word64) (image : Nat) : State :=
  { State.reset with
    codeMode := mode
    cr0 := { pe := pe, am := false, pg := false }
    cr4 := { vme := vme, pvi := false }
    cpl := cpl
    rflags := flags
    rsp := 0x2000
    rip := 0x100
    ss := { selector := 0, base := 0, limit := 0xFFFFFFFF, expandDown := false, big := false }
    mem := Memory.writeLittleEndian [] 0x2000 8 image
    program := [(0x100, 0x9D), (0x101, 0x9D)] }

/-- Real-address mode. -/
def real (flags : Word64) (image : Nat) : State := small .legacy false 0 false flags image

/-- Protected mode. -/
def prot (cpl : Level) (flags : Word64) (image : Nat) : State := small .legacy true cpl false flags image

/-- 64-bit mode. -/
def long (cpl : Level) (flags : Word64) (image : Nat) : State := small .bits64 true cpl false flags image

/-- Virtual-8086 mode; the flags hold VM. -/
def virt (vme : Bool) (flags : Word64) (image : Nat) : State := small .legacy true 3 vme flags image

/-- RFLAGS, RSP and rIP of a next state. -/
def written (o : Host.Outcome State Fault Refusal) : Option (Word64 × Word64 × Word64) :=
  match o with
  | .next t => some (t.rflags, t.rsp, t.rip)
  | .fault _ | .refused _ => none

/-- The fault of an outcome. -/
def faultOf (o : Host.Outcome State Fault Refusal) : Option Fault :=
  match o with
  | .fault f => some f
  | .next _ | .refused _ => none

/-! Well-formedness: an ill-formed term for each check -/

theorem test_wellFormed_refuses_popf_unprefixed_in_32_bit_code : wellFormed ⟨.legacy, .d32⟩ (.popf .absent) = false := by decide
theorem test_wellFormed_refuses_popf_unprefixed_in_64_bit_mode : wellFormed ⟨.bits64, .d16⟩ (.popf .absent) = false := by decide
theorem test_wellFormed_refuses_popf_prefixed_in_16_bit_code : wellFormed ⟨.legacy, .d16⟩ (.popf .present) = false := by decide
theorem test_wellFormed_refuses_popfd_unprefixed_in_16_bit_code : wellFormed ⟨.compatibility, .d16⟩ (.popfd .absent) = false := by decide
theorem test_wellFormed_refuses_popfd_unprefixed_in_64_bit_mode : wellFormed ⟨.bits64, .d32⟩ (.popfd .absent) = false := by decide
theorem test_wellFormed_refuses_popfd_prefixed_in_32_bit_code : wellFormed ⟨.compatibility, .d32⟩ (.popfd .present) = false := by decide
theorem test_wellFormed_refuses_popfd_prefixed_in_64_bit_mode : wellFormed ⟨.bits64, .d16⟩ (.popfd .present) = false := by decide
theorem test_wellFormed_refuses_popfq_outside_64_bit_mode : wellFormed ⟨.compatibility, .d32⟩ .popfq = false := by decide
theorem test_wellFormed_admits_the_lock_form : wellFormed ⟨.legacy, .d16⟩ (.lockPopf .lock) = true := by decide

/-! Decoding: the vectors E1 to E13 -/

theorem test_decode_e1 : decode ⟨.legacy, .d16⟩ [0x9D] = .ok (.popf .absent, 1) := by rfl
theorem test_decode_e2 : decode ⟨.legacy, .d16⟩ [0x66, 0x9D] = .ok (.popfd .present, 2) := by rfl
theorem test_decode_e3 : decode ⟨.compatibility, .d32⟩ [0x9D] = .ok (.popfd .absent, 1) := by rfl
theorem test_decode_e4 : decode ⟨.legacy, .d32⟩ [0x66, 0x9D] = .ok (.popf .present, 2) := by rfl
theorem test_decode_e5 : decode ⟨.bits64, .d16⟩ [0x9D] = .ok (.popfq, 1) := by rfl
theorem test_decode_e6 : decode ⟨.bits64, .d32⟩ [0x66, 0x9D] = .ok (.popf .present, 2) := by rfl
theorem test_decode_e7 : decode ⟨.bits64, .d16⟩ [0xF0, 0x9D] = .ok (.lockPopf .lock, 2) := by rfl
theorem test_decode_e8 : decode ⟨.legacy, .d32⟩ [0xF0, 0x66, 0x9D] = .ok (.lockPopf .lockOpSize, 3) := by rfl
theorem test_decode_e8_other_order : decode ⟨.legacy, .d16⟩ [0x66, 0xF0, 0x9D] = .ok (.lockPopf .opSizeLock, 3) := by rfl
theorem test_decode_e9 : decode ⟨.bits64, .d16⟩ [0x66, 0x66, 0x9D] = .error .repeatedPrefix := by rfl
theorem test_decode_e10 : decode ⟨.bits64, .d16⟩ [0x48, 0x9D] = .error .prefixNotInSource := by rfl
theorem test_decode_e11 : decode ⟨.legacy, .d16⟩ [0x36, 0x9D] = .error .prefixNotInSource := by rfl
theorem test_decode_e12 : decode ⟨.legacy, .d16⟩ [0x9C] = .error .notPopf := by rfl
theorem test_decode_e13 : decode ⟨.legacy, .d16⟩ [0x48, 0x9D] = .error .notPopf := by rfl
theorem test_decode_ends_before_the_opcode : decode ⟨.legacy, .d16⟩ [0x66] = .error .outOfBytes := by rfl
theorem test_table_word : decodeTableWord 8 0x9D = some (.popf .absent) := by decide

/-! The instructions: two vectors each -/

theorem test_popf_k10 : written (exec (.popf .absent) (prot 3 0x202 0x0CD5)) = some (0xED7, 0x2002, 0x101) := by decide
theorem test_popf_v38 : written (exec (.popf .absent) (virt true 0x3F6FD7 0x0000)) = some (0x362202, 0x2002, 0x101) := by decide
theorem test_popfd_v3 : written (exec (.popfd .present) (real 0x2 0xFFFFFFFF)) = some (0x247FD7, 0x2004, 0x102) := by decide
theorem test_popfd_v33 : faultOf (exec (.popfd .present) (virt true 0x21002 0)) = some (.generalProtection 0) := by decide
theorem test_popfq_k9 : written (exec .popfq (long 0 0xABCD000000000002 0x12345678FFFFFFFF)) =
    some (0xABCD000000247FD7, 0x2008, 0x101) := by decide
theorem test_popfq_m10 : faultOf (exec .popfq { long 3 0x202 0 with rsp := 0x00007FFFFFFFFFFC }) =
    some (.stackFault (some 0)) := by decide
theorem test_lock_e7 : faultOf (exec (.lockPopf .lock) (virt false 0x20002 0)) = some .invalidOpcode := by decide
theorem test_step_runs_the_first_instruction_placed_at_reset :
    written (step (State.reset.withFetchWord 8 0x9D)) = some (0x2, 0x2, 0xFFF1) := by decide

/-! Witnesses: states and operands that meet the hypotheses of each obligation together -/

/-- A state whose stack translation faults on its second byte (page at 0x2001, code 5). -/
def paged : State :=
  { prot 3 0x202 0 with
    cr0 := { pe := true, am := false, pg := true }
    env :=
      { Environment.atReset with
        translation := { entries := [⟨0x2001, 0x1000, some 3, .pageFault 5⟩], other := .mapped 0x100000 } } }

/-- A state with alignment checking enabled and an odd stack pointer. -/
def checked : State :=
  { prot 3 0x40202 0 with cr0 := { pe := true, am := true, pg := false }, rsp := 0x2001 }

/-- A state whose stack lies in a device region. -/
def onDevice : State :=
  { prot 0 0x2 0 with env := { Environment.atReset with devices := [⟨0x2000, 2⟩] } }

/-- A state for each row of Table 4-15, in the rows' order, with the operand size of the row. -/
def tableStates : List (State × OperandSize) :=
  [(real 0x2 0, .s16), (real 0x2 0, .s32), (prot 0 0x2 0, .s16), (prot 3 0x2002 0, .s16), (prot 1 0x1002 0, .s16),
    (long 0 0x2 0, .s64), (long 3 0x2002 0, .s64), (prot 1 0x1002 0, .s32)] ++
  [(virt false 0x22002 0, .s16), (virt false 0x23002 0, .s16), (virt false 0x20002 0, .s32), (virt false 0x23002 0, .s32),
    (virt true 0x22002 0, .s16), (virt true 0x23002 0, .s16), (virt true 0x22002 0, .s32), (virt true 0x23002 0, .s32)]

theorem witness_DecodeOfEncode :
    wellFormed ⟨.legacy, .d16⟩ (.popf .absent) = true ∧ wellFormed ⟨.bits64, .d16⟩ (.popf .present) = true ∧
    wellFormed ⟨.compatibility, .d32⟩ (.popfd .absent) = true ∧ wellFormed ⟨.legacy, .d16⟩ (.popfd .present) = true ∧
    wellFormed ⟨.bits64, .d32⟩ .popfq = true ∧ wellFormed ⟨.bits64, .d32⟩ (.lockPopf .opSizeLock) = true := by decide

theorem witness_DecodedBytesAreAnEncoding : decode ⟨.bits64, .d32⟩ [0x66, 0x9D, 0x00] = .ok (.popf .present, 2) := by rfl

theorem witness_OtherPrefixesAreRefused :
    (0x40 ≤ (0x40 : Byte).toNat ∧ (0x40 : Byte).toNat ≤ 0x4F) ∧ (0x40 ≤ (0x4F : Byte).toNat ∧ (0x4F : Byte).toNat ≤ 0x4F) := by decide

theorem witness_OtherPrefixesAreRefused_after_lock :
    [0xF0] ∈ ([[], [0x66], [0xF0], [0x66, 0xF0], [0xF0, 0x66]] : List (List Byte)) ∧
    (0x26 : Byte) ∈ ([0x26, 0x2E, 0x36, 0x3E, 0x64, 0x65, 0x67, 0xF2, 0xF3] : List Byte) ∧
    (0xF3 : Byte) ∈ ([0x26, 0x2E, 0x36, 0x3E, 0x64, 0x65, 0x67, 0xF2, 0xF3] : List Byte) ∧
    (0xF0 : Byte) ∈ ([0xF0] : List Byte) ∧ (0x66 : Byte) ∈ ([0xF0, 0x66] : List Byte) := by decide

theorem witness_StepRunsDecodedInstruction :
    (real 0x2 0).trapFlagLeft = false ∧ wellFormed (real 0x2 0).decodeContext (.popf .absent) = true ∧
    (real 0x2 0).ip + instrLength (.popf .absent) ≤ 2 ^ (real 0x2 0).ipWidth ∧
    (∀ k < instrLength (.popf .absent), findCell (real 0x2 0).program ((real 0x2 0).ip + k) = (encode (.popf .absent))[k]?) := by
  decide

theorem witness_StepAfterTrapFlagIsRefused_set :
    ∃ t, step (real 0x2 0x100) = .next t ∧ flag t.rflags 8 = true := ⟨_, rfl, by decide⟩

theorem witness_StepAfterTrapFlagIsRefused_clear :
    ∃ t, step (real 0x2 0) = .next t ∧ flag t.rflags 8 = false ∧ ∃ i, fetch t = .ok i := ⟨_, rfl, by decide, _, rfl⟩

theorem witness_StepOutsideProgramIsRefused :
    State.reset.trapFlagLeft = false ∧ findCell State.reset.program State.reset.ip = none := by decide

/-- The hypotheses that the statements of completion share. -/
abbrev CanComplete (i : Instr) (size : OperandSize) (s : State) : Prop :=
  formSize i = some size ∧ s.ModeConsistent ∧ s.SizeConsistent size ∧ StackReadable s (sizeBytes size) ∧
    IpAdvances s (instrLength i)

theorem witness_CompletesAtLevelZero_popf :
    CanComplete (.popf .absent) .s16 (real 0x2 0) ∧ (real 0x2 0).vm = false ∧ (real 0x2 0).cr0.pe = false := by decide
theorem witness_CompletesAtLevelZero_popfd :
    CanComplete (.popfd .present) .s32 (prot 0 0x2 0) ∧ (prot 0 0x2 0).vm = false ∧ (prot 0 0x2 0).cpl = 0 := by decide
theorem witness_CompletesAtLevelZero_popfq :
    CanComplete .popfq .s64 (long 0 0x2 0) ∧ (long 0 0x2 0).vm = false ∧ (long 0 0x2 0).cpl = 0 := by decide

theorem witness_CompletesAboveIopl :
    (CanComplete (.popf .absent) .s16 (prot 1 0x2 0) ∧ (prot 1 0x2 0).vm = false ∧ (prot 1 0x2 0).cr0.pe = true ∧
      (prot 1 0x2 0).iopl.toNat < (prot 1 0x2 0).cpl.toNat) ∧
    (CanComplete .popfq .s64 (long 3 0x2002 0) ∧ (long 3 0x2002 0).vm = false ∧ (long 3 0x2002 0).cr0.pe = true ∧
      (long 3 0x2002 0).iopl.toNat < (long 3 0x2002 0).cpl.toNat) := ⟨by decide, by decide⟩

theorem witness_CompletesWithinIopl :
    (CanComplete (.popfd .present) .s32 (prot 1 0x1002 0) ∧ (prot 1 0x1002 0).vm = false ∧ (prot 1 0x1002 0).cr0.pe = true ∧
      (prot 1 0x1002 0).cpl ≠ 0 ∧ (prot 1 0x1002 0).cpl.toNat ≤ (prot 1 0x1002 0).iopl.toNat) ∧
    (CanComplete (.popf .present) .s16 (long 3 0x3002 0) ∧ (long 3 0x3002 0).vm = false ∧ (long 3 0x3002 0).cr0.pe = true ∧
      (long 3 0x3002 0).cpl ≠ 0 ∧ (long 3 0x3002 0).cpl.toNat ≤ (long 3 0x3002 0).iopl.toNat) := ⟨by decide, by decide⟩

theorem witness_CompletesInVirtual8086AtIopl3 :
    (CanComplete (.popf .absent) .s16 (virt false 0x23002 0) ∧ (virt false 0x23002 0).vm = true ∧ (virt false 0x23002 0).iopl = 3) ∧
    (CanComplete (.popfd .present) .s32 (virt true 0x23002 0) ∧ (virt true 0x23002 0).vm = true ∧ (virt true 0x23002 0).iopl = 3) := by
  decide

theorem witness_PopfCompletesWithVme :
    (CanComplete (.popf .absent) .s16 (virt true 0x20002 0x200) ∧ OnVmePath (virt true 0x20002 0x200) ∧
      ¬ TableNotes23 (virt true 0x20002 0x200)) ∧
    (CanComplete (.popf .absent) .s16 (virt true 0x122002 0) ∧ OnVmePath (virt true 0x122002 0) ∧
      ¬ TableNotes23 (virt true 0x122002 0)) := ⟨by decide, by decide⟩

theorem witness_CompletesOnlyThere : ∃ t, exec (.popf .absent) (virt true 0x20002 0) = .next t := ⟨_, rfl⟩

theorem witness_PopfWritesFlags :
    (∃ t, exec (.popf .absent) (prot 3 0x202 0) = .next t) ∧ ¬ OnVmePath (prot 3 0x202 0) := ⟨⟨_, rfl⟩, by decide⟩

theorem witness_PopfdAndPopfqWriteFlags :
    (∃ t, exec (.popfd .present) (virt false 0x23002 0) = .next t) ∧ (∃ t, exec .popfq (long 1 0x2 0) = .next t) :=
  ⟨⟨_, rfl⟩, ⟨_, rfl⟩⟩

theorem witness_Table415Holds :
    ∀ c ∈ table415.zip tableStates,
      tableRowApplies c.1 c.2.1 c.2.2 = true ∧ c.2.1.ModeConsistent ∧ c.2.1.SizeConsistent c.2.2 := by decide

theorem witness_Table415Holds_completes :
    (∃ t, exec (.popf .absent) (virt false 0x23002 0) = .next t) ∧ (∃ t, exec (.popf .absent) (virt true 0x22002 0) = .next t) ∧
    StackReadable (virt true 0x122002 0x200) 2 ∧ TableNotes23 (virt true 0x122002 0x200) ∧ TableNotes23 (virt true 0x20002 0x100) :=
  ⟨⟨_, rfl⟩, ⟨_, rfl⟩, by decide, by decide, by decide⟩

theorem witness_Table415CoversEachStateOnce :
    (virt true 0x20002 0).ModeConsistent ∧ (virt true 0x20002 0).SizeConsistent .s32 := by decide

theorem witness_ResumeFlagIsCleared :
    (∃ t, exec (.popfd .present) (prot 0 0x10002 0) = .next t) ∧
    (∀ k < 8 * sizeBytes .s32, k ≠ 16 →
      imageBit { prot 0 0x10002 0 with mem := (prot 0 0x10002 0x10000).mem } k = imageBit (prot 0 0x10002 0) k) ∧
    exec (.popfd .present) (virt true 0x30002 0) = .fault (.generalProtection 0) := ⟨⟨_, rfl⟩, by decide, rfl⟩

theorem witness_VirtualFlagsAreKept :
    (∃ t, exec (.popf .absent) (virt true 0x20002 0x200) = .next t) ∧ OnVmePath (virt true 0x20002 0x200) ∧
    (∃ t, exec (.popf .absent) (virt true 0x23002 0x200) = .next t) ∧ ¬ OnVmePath (virt true 0x23002 0x200) :=
  ⟨⟨_, rfl⟩, by decide, ⟨_, rfl⟩, by decide⟩

theorem witness_ReservedBitsAreKeptAndIgnored :
    (∃ t, exec .popfq (long 0 0x2 0) = .next t) ∧
    (∀ k < 8 * sizeBytes .s64, reservedMask.getLsbD k = false →
      imageBit { long 0 0x2 0 with mem := (long 0 0x2 0xFFFFFFFFFFC0802A).mem } k = imageBit (long 0 0x2 0) k) :=
  ⟨⟨_, rfl⟩, by decide⟩

theorem witness_InsufficientPrivilegeIsSilent :
    (CanComplete (.popf .absent) .s16 (prot 3 0x2 0) ∧ (prot 3 0x2 0).vm = false ∧ (prot 3 0x2 0).cr0.pe = true ∧
      (prot 3 0x2 0).cpl ≠ 0 ∧ (prot 3 0x2 0).iopl.toNat < (prot 3 0x2 0).cpl.toNat) ∧
    (CanComplete (.popfd .present) .s32 (prot 1 0x1002 0) ∧ (prot 1 0x1002 0).cpl.toNat ≤ (prot 1 0x1002 0).iopl.toNat) := by decide

theorem witness_LockRaisesInvalidOpcode :
    [0x66, 0xF0, 0x9D] ∈ ([[0xF0, 0x9D], [0xF0, 0x66, 0x9D], [0x66, 0xF0, 0x9D]] : List (List Byte)) := by decide

theorem witness_Virtual8086BelowIopl3Faults :
    ((virt false 0x22002 0).ModeConsistent ∧ (virt false 0x22002 0).SizeConsistent .s16 ∧ (virt false 0x22002 0).vm = true ∧
      (virt false 0x22002 0).iopl.toNat < 3 ∧ (virt false 0x22002 0).cr4.vme = false) ∧
    ((virt true 0x20002 0).ModeConsistent ∧ (virt true 0x20002 0).SizeConsistent .s32 ∧ (virt true 0x20002 0).iopl.toNat < 3) ∧
    ((virt true 0x23002 0).iopl = 3 ∧ CanComplete (.popfd .present) .s32 (virt true 0x23002 0)) := ⟨by decide, by decide, by decide⟩

theorem witness_VmeImageFaults :
    ((virt true 0x120002 0x200).ModeConsistent ∧ OnVmePath (virt true 0x120002 0x200) ∧
      StackReadable (virt true 0x120002 0x200) 2 ∧ TableNotes23 (virt true 0x120002 0x200)) ∧
    ((virt true 0x22002 0x100).ModeConsistent ∧ OnVmePath (virt true 0x22002 0x100) ∧
      StackReadable (virt true 0x22002 0x100) 2 ∧ TableNotes23 (virt true 0x22002 0x100)) := by decide

/-- The hypotheses that the statements about the stack read share. -/
abbrev Pops (i : Instr) (size : OperandSize) (s : State) : Prop :=
  formSize i = some size ∧ s.ModeConsistent ∧ s.SizeConsistent size ∧ ReachesPop s size ∧ StackInRange s (sizeBytes size)

/-- Real-address mode with a 32-bit stack pointer past the segment's 64 KiB. -/
def pastSegment : State :=
  { real 0x2 0 with
    rsp := 0xFFFF
    ss := { selector := 0, base := 0, limit := 0xFFFF, expandDown := false, big := true } }

/-- Protected mode with a stack pointer at the last byte of its segment. -/
def atLimit : State :=
  { prot 3 0x2 0 with ss := { selector := 0, base := 0, limit := 0x2000, expandDown := false, big := false } }

theorem witness_StackOutsideSegmentFaults :
    (Pops (.popf .absent) .s16 pastSegment ∧ ¬ StackInSegment pastSegment 2 ∧ pastSegment.operatingMode = some .realAddress) ∧
    (Pops (.popf .absent) .s16 atLimit ∧ ¬ StackInSegment atLimit 2 ∧ atLimit.operatingMode ≠ some .realAddress) := by decide

/-- M15: a launch whose `StackSegCheck` answers "not within the stack segment" for every offset. -/
def unreachable (s : State) : State :=
  { s with env := { Environment.atReset with stackMap := { ranges := [], other := .outside } } }

theorem witness_StackOutsideSegmentFaults_by_the_launch :
    (Pops (.popf .absent) .s16 (unreachable (real 0x2 0)) ∧ ¬ StackInSegment (unreachable (real 0x2 0)) 2) ∧
    (Pops (.popf .absent) .s16 (unreachable (prot 3 0x2 0)) ∧ ¬ StackInSegment (unreachable (prot 3 0x2 0)) 2) := by decide

theorem witness_NonCanonicalStackFaults :
    Pops .popfq .s64 { long 3 0x202 0 with rsp := 0x00007FFFFFFFFFFC } ∧
    (0x00007FFFFFFFFFFC + 4).testBit 47 ≠ (0x00007FFFFFFFFFFC + 4).testBit 63 ∧
    Pops .popfq .s64 { long 3 0x202 0 with rsp := 0xFFFF800000000000 } ∧
    StackInSegment { long 3 0x202 0 with rsp := 0xFFFF800000000000 } 8 := by decide

theorem witness_StackPageFaults :
    Pops (.popf .absent) .s16 paged ∧ StackInSegment paged 2 ∧ (∀ j < 1, stackByteMapped paged j = true) ∧
    translateByte paged (stackByteAddress paged 1) = .error 5 := ⟨by decide, by decide, by decide, rfl⟩

theorem witness_UnalignedStackFaults :
    Pops (.popf .absent) .s16 checked ∧ StackInSegment checked 2 ∧ StackMapped checked 2 ∧
    (stackLinear checked checked.stackPointer % 2 ≠ 0 ∧ checked.cr0.am = true ∧ flag checked.rflags 18 = true ∧
      checked.cr0.pe = true ∧ checked.cpl = 3) ∧
    Pops (.popf .absent) .s16 (prot 3 0x202 0) ∧ StackMapped (prot 3 0x202 0) 2 ∧ StackInSegment (prot 3 0x202 0) 2 := by decide

theorem witness_FaultsOnlyInTheOrderOfPriority :
    exec (.lockPopf .lock) State.reset = .fault .invalidOpcode ∧
    exec (.popf .absent) (virt false 0x20002 0) = .fault (.generalProtection 0) ∧
    exec (.popf .absent) atLimit = .fault (.stackFault (some 0)) ∧
    exec (.popf .absent) paged = .fault (.pageFault 5) ∧
    exec (.popf .absent) checked = .fault (.alignmentCheck 0) ∧
    exec (.popf .absent) (virt true 0x20002 0x100) = .fault (.generalProtection 0) := ⟨rfl, rfl, rfl, rfl, rfl, rfl⟩

theorem witness_OnlyListedFaultsInEachMode :
    (pastSegment.operatingMode = some .realAddress ∧ exec (.popf .absent) pastSegment = .fault (.stackFault none)) ∧
    (paged.operatingMode = some .protectedMode ∧ exec (.popf .absent) paged = .fault (.pageFault 5)) := ⟨⟨rfl, rfl⟩, rfl, rfl⟩

theorem witness_GeneralProtectionOnlyInVirtual8086 :
    (long 3 0x2 0).operatingMode = some .mode64 ∧ (prot 3 0x2 0).operatingMode = some .protectedMode ∧
    (small .compatibility true 3 false 0x2 0).operatingMode = some .compatibilityMode ∧
    (real 0x2 0).operatingMode = some .realAddress := by decide

theorem witness_GeneralProtectionOnlyInVirtual8086_noncanonical :
    (let s := { long 3 0x202 0 with rsp := 0x00007FFFFFFFFFFC }
     formSize .popfq = some .s64 ∧ s.operatingMode = some .mode64 ∧ StackInRange s 8 ∧
       canonical s.env.vaBits (s.rsp.toNat + 4) = false) := by decide

theorem witness_InconsistentStateIsRefused :
    ((real 0x20002 0).cr0.pe = false ∧ (real 0x20002 0).vm = true) ∧
    ((prot 0 0x20002 0).vm = true ∧ (prot 0 0x20002 0).cpl ≠ 3) ∧
    ((long 3 0x20002 0).vm = true ∧ (long 3 0x20002 0).codeMode ≠ .legacy) ∧
    ((small .compatibility false 0 false 0x2 0).cr0.pe = false ∧ (small .compatibility false 0 false 0x2 0).codeMode ≠ .legacy) ∧
    (formSize .popfq = some .s64 ∧ (prot 0 0x2 0).codeMode ≠ .bits64) ∧
    (formSize (.popfd .absent) = some .s32 ∧ (long 0 0x2 0).codeMode = .bits64) := by decide

theorem witness_StackPointerWrapIsRefused :
    (let s := { real 0x2 0 with rsp := 0xFFFF }
     s.ModeConsistent ∧ ReachesPop s .s16 ∧ 2 ^ s.stackAddrSize < s.stackPointer + sizeBytes .s16) ∧
    (let s := { real 0x2 0 with rsp := 0xFFFE }
     CanComplete (.popf .absent) .s16 s ∧ s.stackPointer + sizeBytes .s16 = 2 ^ s.stackAddrSize ∧ ¬ OnVmePath s) := by decide

theorem witness_DeviceStackIsRefused :
    Pops (.popf .absent) .s16 onDevice ∧ StackInSegment onDevice 2 ∧ StackMapped onDevice 2 ∧ StackAligned onDevice 2 ∧
    ¬ StackOrdinary onDevice 2 := by decide

theorem witness_InstructionPointerWrapIsRefused :
    (let s := { real 0x2 0 with rip := 0xFFFF }
     Pops (.popf .absent) .s16 s ∧ StackReadable s 2 ∧ ¬ OnVmePath s ∧ 2 ^ s.ipWidth ≤ s.ip + instrLength (.popf .absent)) := by
  decide

theorem witness_PopIsLittleEndian :
    (∃ p, pop 2 (real 0x2 0x0CD5) = .ok p) ∧ (∃ p, pop 4 (real 0x2 0x243202) = .ok p) ∧ (∃ p, pop 8 (long 0 0x2 0x2) = .ok p) :=
  ⟨⟨_, rfl⟩, ⟨_, rfl⟩, ⟨_, rfl⟩⟩

/-- Program 4's stack: a launch whose `StackSegCheck(0xFFF8, 2)` is 0x2FFF8, whatever the selector holds. -/
def placed : State :=
  { real 0x2 0 with
    rsp := 0xFFF8
    mem := Memory.writeLittleEndian [] 0x2FFF8 2 0xF202
    env := { Environment.atReset with stackMap := { ranges := [⟨0xF000, 0x1000, .linear 0x2F000⟩], other := .outside } } }

theorem witness_PopIsLittleEndian_placed :
    written (exec (.popf .absent) placed) = some (0x7202, 0xFFFA, 0x101) := by decide

theorem witness_FrameOfEveryInstruction :
    (∃ t, exec (.popf .absent) (real 0x2 0) = .next t) ∧ (∃ t, exec (.popfd .present) (prot 3 0x2 0) = .next t) ∧
    (∃ t, exec .popfq (long 3 0x2 0) = .next t) := ⟨⟨_, rfl⟩, ⟨_, rfl⟩, ⟨_, rfl⟩⟩

theorem witness_InstructionPointerAdvances :
    (∃ t, exec (.popfd .present) (real 0x2 0) = .next t) ∧ (∃ f, exec (.popfd .present) (virt true 0x20002 0) = .fault f) :=
  ⟨⟨_, rfl⟩, ⟨_, rfl⟩⟩

theorem witness_RipAboveItsWidthIsKept :
    (let s := { prot 3 0x2 0 with rip := 0xABCD0000FFF0 }
     ∃ t, exec (.popf .absent) s = .next t ∧ s.rip.toNat / 2 ^ s.ipWidth ≠ 0) := ⟨_, rfl, by decide⟩

theorem witness_MemWriteThenRead : ((0 : Nat) < 1 ∧ (7 : Nat) < 8) ∧ ((9 : Nat) < 10 ∧ (10 : Nat) + 8 ≤ 18) := by decide

theorem witness_RealAddressModeIgnoresCpl : (real 0x2 0).cr0.pe = false := by decide

theorem witness_VmeHasNoEffectOutsideVirtual8086 : (prot 3 0x2 0).vm = false := by decide

theorem witness_StepKeepsInvariant : (real 0x2 0x100).Inv ∧ ∃ t, step (real 0x2 0x100) = .next t :=
  ⟨⟨by decide, by decide, by decide, by decide⟩, _, rfl⟩

theorem witness_RunKeepsModeMemoryAndProtectedFlags : ∃ t, Host.Core.run core 2 (virt true 0x20002 0) = .next t := ⟨_, rfl⟩

theorem witness_RunCannotRaisePrivilege :
    (∃ t, Host.Core.run core 2 (prot 3 0x202 0) = .next t) ∧ (prot 3 0x202 0).cr0.pe = true ∧ (prot 3 0x202 0).cpl ≠ 0 ∧
    (prot 3 0x202 0).iopl.toNat < (prot 3 0x202 0).cpl.toNat := ⟨⟨_, rfl⟩, by decide, by decide, by decide⟩

end Sys2Proof.Tests
end

/-! PROOF. CR4.PVI and the general registers other than RSP have no effect (spec 10_state.md R24, 40_popf.md R71). Replacing
them, `State.withUnread`, is passed through the state's readings, the operations, `exec` and `step`, in the order of their
definitions: a reading is unchanged, an outcome is that of the old state under `mapNext`. -/

namespace Sys2Proof.Machine

/-! Outcomes under a change of the next state -/

section MapNext

variable (f : State → State)

@[simp] theorem mapNext_next (t : State) : mapNext f (.next t) = .next (f t) := rfl
@[simp] theorem mapNext_fault (e : Fault) : mapNext f (.fault e) = .fault e := rfl
@[simp] theorem mapNext_refused (r : Refusal) : mapNext f (.refused r) = .refused r := rfl
@[simp] theorem mapNext_raise (e : Fault) : mapNext f (raise e) = raise e := rfl

/-- An instruction that is stopped leaves no next state to change. -/
@[simp] theorem mapNext_stopWith (e : Stop) : mapNext f (stopWith e) = stopWith e := by
  cases e <;> rfl

end MapNext

/-- A change of the state that commutes with every step commutes with every run. -/
theorem run_commutes {f : State → State} (hf : ∀ s, step (f s) = mapNext f (step s)) (n : Nat) (s : State) :
    Host.Core.run core n (f s) = mapNext f (Host.Core.run core n s) := by
  induction n generalizing s with
  | zero => rfl
  | succ n ih =>
    have hfs := hf s
    cases hs : step s with
    | next u =>
      rw [hs, mapNext_next] at hfs
      rw [run_of_next hfs, run_of_next hs, ih u]
    | fault e =>
      rw [hs, mapNext_fault] at hfs
      rw [run_of_fault hfs, run_of_fault hs]
      rfl
    | refused r =>
      rw [hs, mapNext_refused] at hfs
      rw [run_of_refused hfs, run_of_refused hs]
      rfl

section WithUnread

variable (s : State) (g : GeneralRegisters) (pvi : Bool)

/-! The readings of the state -/

@[simp] theorem State.withUnread_rflags : (s.withUnread g pvi).rflags = s.rflags := rfl
@[simp] theorem State.withUnread_cr0 : (s.withUnread g pvi).cr0 = s.cr0 := rfl
@[simp] theorem State.withUnread_trapFlagLeft : (s.withUnread g pvi).trapFlagLeft = s.trapFlagLeft := rfl
@[simp] theorem State.withUnread_vm : (s.withUnread g pvi).vm = s.vm := rfl
@[simp] theorem State.withUnread_vip : (s.withUnread g pvi).vip = s.vip := rfl
@[simp] theorem State.withUnread_iopl : (s.withUnread g pvi).iopl = s.iopl := rfl
@[simp] theorem State.withUnread_effectiveCpl : (s.withUnread g pvi).effectiveCpl = s.effectiveCpl := rfl
@[simp] theorem State.withUnread_stackAddrSize : (s.withUnread g pvi).stackAddrSize = s.stackAddrSize := rfl
@[simp] theorem State.withUnread_stackPointer : (s.withUnread g pvi).stackPointer = s.stackPointer := rfl
@[simp] theorem State.withUnread_rspWith (v : Nat) : (s.withUnread g pvi).rspWith v = s.rspWith v := rfl
@[simp] theorem State.withUnread_drawsAfterPop : (s.withUnread g pvi).drawsAfterPop = s.drawsAfterPop := rfl

/-! The stack read -/

@[simp] theorem translateByte_withUnread : translateByte (s.withUnread g pvi) = translateByte s := rfl
@[simp] theorem linearRun_withUnread : linearRun (s.withUnread g pvi) = linearRun s := rfl
@[simp] theorem stackSegCheck_withUnread : stackSegCheck (s.withUnread g pvi) = stackSegCheck s := rfl

@[simp] theorem translateAll_withUnread (las : List Nat) : translateAll (s.withUnread g pvi) las = translateAll s las := by
  induction las with
  | nil => rfl
  | cons la rest ih => simp only [translateAll, translateByte_withUnread, ih]

@[simp] theorem readStack_withUnread (la n : Nat) : readStack (s.withUnread g pvi) la n = readStack s la n := by
  unfold readStack
  rw [linearRun_withUnread, translateAll_withUnread]
  rfl

@[simp] theorem pop_withUnread (n : Nat) : pop n (s.withUnread g pvi) = pop n s := by
  simp [pop]

/-! The instruction -/

/-- Completing writes none of what `withUnread` replaces. -/
theorem afterPop_withUnread (flags : Word64) (p : Popped) (n : Nat) :
    (s.withUnread g pvi).afterPop flags p n = (s.afterPop flags p n).withUnread g pvi := rfl

theorem complete_withUnread (flags : Word64) (p : Popped) (n : Nat) :
    complete (s.withUnread g pvi) flags p n = mapNext (·.withUnread g pvi) (complete s flags p n) := by
  unfold complete
  rw [apply_ite (mapNext _)]
  rfl

theorem popMasked_withUnread (size : OperandSize) (mask : Word64) (n : Nat) :
    popMasked size mask n (s.withUnread g pvi) = mapNext (·.withUnread g pvi) (popMasked size mask n s) := by
  simp only [popMasked, pop_withUnread, State.withUnread_rflags, complete_withUnread]
  cases pop (sizeBytes size) s with
  | error e => exact (mapNext_stopWith _ e).symm
  | ok p => rfl

theorem popVme_withUnread (n : Nat) :
    popVme n (s.withUnread g pvi) = mapNext (·.withUnread g pvi) (popVme n s) := by
  simp only [popVme, pop_withUnread, State.withUnread_rflags, State.withUnread_vip, complete_withUnread]
  cases pop (sizeBytes .s16) s with
  | error e => exact (mapNext_stopWith _ e).symm
  | ok p => by_cases h : vmeImageFaults s.vip p.image = true <;> simp [h]

/-- The branch of R60 is chosen by readings that `withUnread` keeps, and each branch commutes with it. -/
theorem execSized_withUnread (size : OperandSize) (n : Nat) :
    execSized size n (s.withUnread g pvi) = mapNext (·.withUnread g pvi) (execSized size n s) := by
  unfold execSized
  rw [apply_ite (mapNext _)]
  refine if_congr Iff.rfl ?_ rfl
  simp only [State.withUnread_vm, State.withUnread_cr0, State.withUnread_effectiveCpl, State.withUnread_iopl]
  cases writeMask s.vm s.cr0.pe s.effectiveCpl s.iopl size with
  | some mask => exact popMasked_withUnread s g pvi size mask n
  | none =>
    dsimp only
    rw [apply_ite (mapNext _), popVme_withUnread]
    rfl

theorem exec_withUnread (i : Instr) :
    exec i (s.withUnread g pvi) = mapNext (·.withUnread g pvi) (exec i s) := by
  cases hf : formSize i with
  | none => rw [exec_of_formSize_none hf, exec_of_formSize_none hf, mapNext_fault]
  | some size => rw [exec_of_formSize hf, exec_of_formSize hf, execSized_withUnread]

@[simp] theorem fetch_withUnread : fetch (s.withUnread g pvi) = fetch s := rfl

theorem step_withUnread : step (s.withUnread g pvi) = mapNext (·.withUnread g pvi) (step s) := by
  simp only [step, State.withUnread_trapFlagLeft, fetch_withUnread, exec_withUnread]
  by_cases ht : s.trapFlagLeft = true
  · simp only [ht, if_true, mapNext_refused]
  · cases fetch s <;> simp [ht]

end WithUnread

/-- Settles O42: replacing what no rule reads commutes with a step, so with a run. -/
theorem pviAndGeneralRegistersHaveNoEffect : Obligations.PviAndGeneralRegistersHaveNoEffect := by
  intro n s g pvi
  exact run_commutes (fun u => step_withUnread u g pvi) n s

end Sys2Proof.Machine

/-! PROOF. The top of the stack-pointer range (spec 20_memory.md R31, R38). Past it `Pop` stops before any other check; up to
it a readable stack is popped, and the instruction is left to complete unless its image faults on the path of R65. -/

namespace Sys2Proof.Machine

section ReachesPop

variable {s : State} {size : OperandSize} (n : Nat)

/-- R31: the core where it reaches its pop and the pop has a reason to stop. -/
theorem execSized_of_popStops {e : Stop} (hc : s.ModeConsistent) (hz : s.SizeConsistent size) (hrp : ReachesPop s size)
    (h : PopStops s (sizeBytes size) e) : execSized size n s = stopWith e :=
  execSized_of_pop_error hc hz hrp (pop_of_stops h)

/-- R60, R65: the core where it reaches its pop, the stack is readable and the image does not fault. Whether it completes is
then for rIP alone to say. -/
theorem execSized_of_readable (hc : s.ModeConsistent) (hz : s.SizeConsistent size) (hrp : ReachesPop s size)
    (hr : StackReadable s (sizeBytes size)) (hnf : ¬ (OnVmePath s ∧ TableNotes23 s)) :
    ∃ flags p, PoppedIs s (sizeBytes size) p ∧ execSized size n s = complete s flags p n := by
  obtain ⟨p, hp, his⟩ := pop_of_readable hr
  cases hm : writeMask s.vm s.cr0.pe s.effectiveCpl s.iopl size with
  | some mask =>
    refine ⟨maskedFlags s.rflags p.image mask, p, his, ?_⟩
    rw [execSized_masked n hc hz hm, popMasked, hp]
  | none =>
    obtain ⟨hvm, hiopl⟩ := writeMask_eq_none_iff.1 hm
    obtain ⟨rfl, hvme⟩ : size = .s16 ∧ s.cr4.vme = true := (hrp.resolve_left (by simp [hvm])).resolve_left hiopl
    have hpath : OnVmePath s := ⟨hvm, hvme, hiopl⟩
    have himage : ¬ vmeImageFaults s.vip p.image = true := fun hf => hnf ⟨hpath, (vmeImageFaults_iff le_rfl his).1 hf⟩
    refine ⟨vmeFlags s.rflags p.image, p, his, ?_⟩
    rw [execSized_vme n hc hpath, popVme, hp]
    exact if_neg himage

/-- R60, R73, R74: the core where nothing stops it. -/
theorem execSized_completes (hc : s.ModeConsistent) (hz : s.SizeConsistent size) (hrp : ReachesPop s size)
    (hr : StackReadable s (sizeBytes size)) (hnf : ¬ (OnVmePath s ∧ TableNotes23 s)) (hip : IpAdvances s n) :
    ∃ t, execSized size n s = .next t ∧ Advanced s t (sizeBytes size) n := by
  obtain ⟨flags, p, his, he⟩ := execSized_of_readable n hc hz hrp hr hnf
  exact ⟨_, by rw [he, complete_of_advances hip], advanced_afterPop flags his hip⟩

end ReachesPop

/-- R38: a stack pointer moved to exactly the top of its range is 0. -/
theorem Advanced.stackPointer_eq_zero {s t : State} {n length : Nat} (h : Advanced s t n length)
    (htop : s.stackPointer + n = 2 ^ s.stackAddrSize) : t.stackPointer = 0 := by
  rw [h.stackPointer, htop, Nat.mod_self]

/-- Settles O33: past the top `Pop` is refused first, and at the top the instruction completes with the sum taken modulo the
range. -/
theorem stackPointerWrapIsRefused : Obligations.StackPointerWrapIsRefused := by
  intro i size s hf hc hz hrp
  rw [exec_of_formSize hf]
  constructor
  · intro hpast
    exact execSized_of_popStops _ hc hz hrp (.wrap (Nat.not_le.2 hpast))
  · intro htop hr hip hnf
    obtain ⟨t, ht, hadv⟩ := execSized_completes _ hc hz hrp hr hnf hip
    exact ⟨t, ht, hadv.stackPointer_eq_zero htop⟩

end Sys2Proof.Machine

/-! PROOF. The decoder's loop byte by byte (spec 30_encoding.md R58), first what it answers at each kind of byte, then how it
consumes the sequences of admitted prefixes of R53: a decode after such a sequence is the loop from the point it has reached. -/

namespace Sys2Proof

/-! One byte of the loop -/

section DecodeFrom

variable (c : DecodeContext) (rest : List Byte) {p p' : Prefixes} {b : Byte}

theorem decodeFrom_opSize_fresh (h : addOpSize p = some p') :
    decodeFrom c p (opSizeByte :: rest) = decodeFrom c p' rest := by
  simp [decodeFrom, h]

theorem decodeFrom_lock_fresh (h : addLock p = some p') :
    decodeFrom c p (lockByte :: rest) = decodeFrom c p' rest := by
  simp [decodeFrom, h, show lockByte ≠ opSizeByte by decide]

theorem decodeFrom_opSize_repeated (h : addOpSize p = none) :
    decodeFrom c p (opSizeByte :: rest) = .error .repeatedPrefix := by
  simp [decodeFrom, h]

theorem decodeFrom_lock_repeated (h : addLock p = none) :
    decodeFrom c p (lockByte :: rest) = .error .repeatedPrefix := by
  simp [decodeFrom, h, show lockByte ≠ opSizeByte by decide]

/-- R52: the admitted prefixes are not in the list of the others, so the loop reaches its test for these. -/
theorem decodeFrom_otherPrefix (h : b ∈ otherPrefixBytes) :
    decodeFrom c p (b :: rest) = .error .prefixNotInSource := by
  have hop : b ≠ opSizeByte := ne_of_mem_of_not_mem h (by decide)
  have hlock : b ≠ lockByte := ne_of_mem_of_not_mem h (by decide)
  simp [decodeFrom, hop, hlock, h]

/-- A REX byte is none of the bytes that the loop tests for by value. -/
theorem ne_and_notMem_of_isRexByte (h : isRexByte b = true) :
    b ≠ opSizeByte ∧ b ≠ lockByte ∧ b ∉ otherPrefixBytes ∧ b ≠ opcodeByte := by
  have hne : ∀ a : Byte, isRexByte a = false → b ≠ a := by
    rintro a ha rfl
    exact absurd h (by simp [ha])
  have hothers : ∀ a ∈ otherPrefixBytes, isRexByte a = false := by decide
  exact ⟨hne _ (by decide), hne _ (by decide), fun hm => hne b (hothers b hm) rfl, hne _ (by decide)⟩

/-- R52, R54, R57: REX bytes are prefixes in 64-bit mode and opcodes of other instructions outside it. -/
theorem decodeFrom_rex (h : isRexByte b = true) :
    decodeFrom c p (b :: rest) = .error (if c.codeMode = .bits64 then .prefixNotInSource else .notPopf) := by
  obtain ⟨hop, hlock, hother, hopcode⟩ := ne_and_notMem_of_isRexByte h
  by_cases hmode : c.codeMode = .bits64
  · simp [decodeFrom, hop, hlock, hother, h, hmode]
  · simp [decodeFrom, hop, hlock, hother, hopcode, hmode]

/-- The opcode byte is none of the bytes that the loop tests for before it. -/
theorem decodeFrom_opcode :
    decodeFrom c p (opcodeByte :: rest) = .ok (selectInstr c p, prefixCount p + 1) := by
  have hop : opcodeByte ≠ opSizeByte := by decide
  have hlock : opcodeByte ≠ lockByte := by decide
  have hother : opcodeByte ∉ otherPrefixBytes := by decide
  have hrex : isRexByte opcodeByte = false := by decide
  simp [decodeFrom, hop, hlock, hother, hrex]

end DecodeFrom

/-! The sequences of admitted prefixes -/

/-- R53: the bytes of the prefixes that the decoder has consumed, lowest address first. -/
def prefixBytes (p : Prefixes) : List Byte :=
  match p with
  | .none       => []
  | .opSize     => [opSizeByte]
  | .lock       => [lockByte]
  | .opSizeLock => [opSizeByte, lockByte]
  | .lockOpSize => [lockByte, opSizeByte]

@[simp] theorem length_prefixBytes (p : Prefixes) : (prefixBytes p).length = prefixCount p := by
  cases p <;> rfl

/-- R58: the loop reads a sequence of admitted prefixes to its end. -/
theorem decode_prefixBytes_append (c : DecodeContext) (p : Prefixes) (bytes : List Byte) :
    decode c (prefixBytes p ++ bytes) = decodeFrom c p bytes := by
  cases p with
  | none => rfl
  | opSize => exact decodeFrom_opSize_fresh c _ rfl
  | lock => exact decodeFrom_lock_fresh c _ rfl
  | opSizeLock => exact (decodeFrom_opSize_fresh c _ rfl).trans (decodeFrom_lock_fresh c _ rfl)
  | lockOpSize => exact (decodeFrom_lock_fresh c _ rfl).trans (decodeFrom_opSize_fresh c _ rfl)

/-- R50: prefixes that have been consumed cannot be added again. -/
theorem repeats_of_mem_prefixBytes {p : Prefixes} {b : Byte} (h : b ∈ prefixBytes p) :
    (b = opSizeByte ∧ addOpSize p = none) ∨ (b = lockByte ∧ addLock p = none) := by
  cases p <;> simp only [prefixBytes, List.mem_cons, List.not_mem_nil, or_false] at h
  case opSize => exact .inl ⟨h, rfl⟩
  case lock => exact .inr ⟨h, rfl⟩
  case opSizeLock => exact h.imp (⟨·, rfl⟩) (⟨·, rfl⟩)
  case lockOpSize => exact h.symm.imp (⟨·, rfl⟩) (⟨·, rfl⟩)

/-- R50: the loop refuses a byte of the sequence it has consumed. -/
theorem decodeFrom_repeated (c : DecodeContext) (rest : List Byte) {p : Prefixes} {b : Byte} (h : b ∈ prefixBytes p) :
    decodeFrom c p (b :: rest) = .error .repeatedPrefix := by
  obtain ⟨rfl, hadd⟩ | ⟨rfl, hadd⟩ := repeats_of_mem_prefixBytes h
  · exact decodeFrom_opSize_repeated c rest hadd
  · exact decodeFrom_lock_repeated c rest hadd

/-- R53, R58: a sequence of admitted prefixes and the opcode byte are an instruction of that length, whatever follows. -/
theorem decode_prefixBytes_opcode (c : DecodeContext) (p : Prefixes) (rest : List Byte) :
    decode c ((prefixBytes p ++ [opcodeByte]) ++ rest) =
      .ok (selectInstr c p, (prefixBytes p ++ [opcodeByte]).length) := by
  rw [List.append_assoc, decode_prefixBytes_append, List.length_append, length_prefixBytes]
  exact decodeFrom_opcode c rest

/-- R53: the five admitted sequences, written out. -/
theorem exists_prefixBytes_eq {before : List Byte}
    (h : before ∈ ([[], [0x66], [0xF0], [0x66, 0xF0], [0xF0, 0x66]] : List (List Byte))) :
    ∃ p, before = prefixBytes p := by
  simp only [List.mem_cons, List.not_mem_nil, or_false] at h
  obtain rfl | rfl | rfl | rfl | rfl := h
  exacts [⟨.none, rfl⟩, ⟨.opSize, rfl⟩, ⟨.lock, rfl⟩, ⟨.opSizeLock, rfl⟩, ⟨.lockOpSize, rfl⟩]

/-- R51, R53: the three encodings with LOCK, written out, select the illegal form in every context. -/
theorem exists_prefixBytes_eq_of_lock {bytes : List Byte}
    (h : bytes ∈ ([[0xF0, 0x9D], [0xF0, 0x66, 0x9D], [0x66, 0xF0, 0x9D]] : List (List Byte))) :
    ∃ p f, bytes = prefixBytes p ++ [opcodeByte] ∧ ∀ c, selectInstr c p = .lockPopf f := by
  simp only [List.mem_cons, List.not_mem_nil, or_false] at h
  obtain rfl | rfl | rfl := h
  exacts [⟨.lock, .lock, rfl, fun _ => rfl⟩, ⟨.lockOpSize, .lockOpSize, rfl, fun _ => rfl⟩,
    ⟨.opSizeLock, .opSizeLock, rfl, fun _ => rfl⟩]

/-! The two statements -/

/-- Settles O4: the loop stands at the byte in question with the sequence consumed, and answers by the kind of that byte. -/
theorem otherPrefixesAreRefused : Obligations.OtherPrefixesAreRefused := by
  intro c rest before hbefore
  obtain ⟨p, rfl⟩ := exists_prefixBytes_eq hbefore
  simp only [decode_prefixBytes_append]
  refine ⟨fun b hb => ?other, fun b hlo hhi => ?rex, fun b hb => ?repeated⟩
  case other => exact decodeFrom_otherPrefix c rest hb
  case rex => exact decodeFrom_rex c rest (decide_eq_true ⟨hlo, hhi⟩)
  case repeated => exact decodeFrom_repeated c rest hb

/-- Settles O22: each of the three encodings ends its prefixes with LOCK among them, and the form they select has no operand
size, so it runs no core. -/
theorem lockRaisesInvalidOpcode : Obligations.LockRaisesInvalidOpcode := by
  refine ⟨fun c rest bytes hbytes => ?decodes, fun f s => ?raises, rfl⟩
  case decodes =>
    obtain ⟨p, f, rfl, hf⟩ := exists_prefixBytes_eq_of_lock hbytes
    exact ⟨f, by rw [decode_prefixBytes_opcode, hf]⟩
  case raises => exact Machine.exec_of_formSize_none rfl s

end Sys2Proof

/-! PROOF. POPF's completed flags, mode by mode (spec 40_popf.md R60 to R74). First the bits that some mask of R61 takes from
the stack and what a bit outside them becomes; then an instruction that completes with a given mask; then the statements about
single flags, privilege and rIP. -/

namespace Sys2Proof.Machine

/-! The bits that are taken from the stack -/

/-- R61: the bits that an operand size can take from the stack: those of its widest mask. -/
def writableMask (size : OperandSize) : Word64 := 0x7FD5 ||| highMask size

/-- Every mask of R61 is within the writable bits. -/
theorem writableMask_of_low {low : Word64} (hl : low = 0x7FD5 ∨ low = 0x4DD5 ∨ low = 0x4FD5) {size : OperandSize} {k : Nat}
    (h : (low ||| highMask size).getLsbD k = true) : (writableMask size).getLsbD k = true := by
  have hlow : ∀ k < 64, low.getLsbD k = true → (0x7FD5 : Word64).getLsbD k = true := by
    obtain rfl | rfl | rfl := hl <;> decide
  have hk : k < 64 := BitVec.lt_of_getLsbD h
  rw [BitVec.getLsbD_or, Bool.or_eq_true] at h
  rw [writableMask, BitVec.getLsbD_or, Bool.or_eq_true]
  exact h.imp_left (hlow k hk)

/-- R12, R61: a writable bit is popped, and is neither RF nor reserved. -/
theorem writableMask_bit {size : OperandSize} {k : Nat} (h : (writableMask size).getLsbD k = true) :
    k < 8 * sizeBytes size ∧ k ≠ 16 ∧ reservedMask.getLsbD k = false := by
  refine ⟨writeMask_bit_lt (.inl rfl) h, ?_⟩
  have hk : k < 64 := BitVec.lt_of_getLsbD h
  revert h
  revert k
  cases size <;> decide

/-- R61: operand size 64 has every writable bit. -/
theorem writableMask_s64 {size : OperandSize} {k : Nat} (h : (writableMask size).getLsbD k = true) :
    (writableMask .s64).getLsbD k = true := by
  cases size with
  | s16 =>
    rw [writableMask, BitVec.getLsbD_or, Bool.or_eq_true] at h ⊢
    exact .inl (h.resolve_right (by simp [highMask]))
  | s32 => exact h
  | s64 => exact h

section FlagsTaken

variable {s : State} {mask new : Word64} {k : Nat}

theorem FlagsTaken.taken (h : FlagsTaken s mask new) (hm : mask.getLsbD k = true) : new.getLsbD k = imageBit s k := by
  rw [h k (BitVec.lt_of_getLsbD hm), if_pos hm]

theorem FlagsTaken.kept (h : FlagsTaken s mask new) (hk : k < 64) (hm : mask.getLsbD k = false) (hrf : k ≠ 16) :
    new.getLsbD k = s.rflags.getLsbD k := by
  simp [h k hk, hm, hrf]

end FlagsTaken

/-- R60, R61, R65: a bit that is not writable is RF, which is cleared, VIF, which the extensions write, or kept. -/
theorem exec_next_unwritable {i : Instr} {s t : State} (h : exec i s = .next t) {k : Nat} (hk : k < 64)
    (hvif : k = 19 → ¬ OnVmePath s) (hw : (writableMask .s64).getLsbD k = false) :
    t.rflags.getLsbD k = if k = 16 then false else s.rflags.getLsbD k := by
  have hmask {low : Word64} (hlow : low = 0x7FD5 ∨ low = 0x4DD5 ∨ low = 0x4FD5) (size : OperandSize) :
      (low ||| highMask size).getLsbD k ≠ true := fun hm => by
    simp [writableMask_s64 (writableMask_of_low hlow hm)] at hw
  obtain ⟨size, -, ⟨low, -, hlow, hflags⟩ | ⟨hpath, -, -, hflags⟩⟩ := exec_next_flags h
  · rw [hflags k hk, if_neg (hmask hlow size)]
  · have harith : (0x4DD5 : Word64).getLsbD k ≠ true := hmask (.inr (.inl rfl)) .s16
    rw [hflags k hk, if_neg fun h19 => hvif h19 hpath, if_neg harith]

/-- R67: RF is clear in every next state. -/
theorem exec_next_rf {i : Instr} {s t : State} (h : exec i s = .next t) : flag t.rflags 16 = false :=
  exec_next_unwritable h (by decide) nofun (by decide)

/-! Completing with a mask -/

section Levels

variable {s : State} {low : Word64}

/-- R61: the mask of CPL 0. -/
theorem lowMask_cplZero (hc : s.ModeConsistent) (hl : lowMask s.vm s.cr0.pe s.effectiveCpl s.iopl = some low)
    (h : s.effectiveCpl = 0) : low = 0x7FD5 := by
  obtain ⟨-, hlow⟩ | ⟨hne, -⟩ | ⟨hne, -⟩ := lowMask_levels hc hl
  · exact hlow
  · exact absurd h hne
  · exact absurd h hne

/-- R61: the mask of IOPL < CPL. -/
theorem lowMask_ioplBelow (hc : s.ModeConsistent) (hl : lowMask s.vm s.cr0.pe s.effectiveCpl s.iopl = some low)
    (h : s.iopl.toNat < s.effectiveCpl.toNat) : low = 0x4DD5 := by
  obtain ⟨hzero, -⟩ | ⟨-, -, hlow⟩ | ⟨-, hle, -⟩ := lowMask_levels hc hl
  · simp [hzero] at h
  · exact hlow
  · omega

/-- R61: the mask of 0 < CPL ≤ IOPL. -/
theorem lowMask_ioplAtLeast (hc : s.ModeConsistent) (hl : lowMask s.vm s.cr0.pe s.effectiveCpl s.iopl = some low)
    (hne : s.effectiveCpl ≠ 0) (h : s.effectiveCpl.toNat ≤ s.iopl.toNat) : low = 0x4FD5 := by
  obtain ⟨hzero, -⟩ | ⟨-, hlt, -⟩ | ⟨-, -, hlow⟩ := lowMask_levels hc hl
  · exact absurd hzero hne
  · omega
  · exact hlow

end Levels

/-- R60: where a mask is defined, a readable stack is popped under it and the instruction completes unless rIP wraps. -/
theorem exec_completes_of_lowMask {i : Instr} {size : OperandSize} {s : State} {low : Word64} (hf : formSize i = some size)
    (hc : s.ModeConsistent) (hz : s.SizeConsistent size) (hl : lowMask s.vm s.cr0.pe s.effectiveCpl s.iopl = some low)
    (hr : StackReadable s (sizeBytes size)) (hip : IpAdvances s (instrLength i)) :
    ∃ t, exec i s = .next t ∧ FlagsTaken s (low ||| highMask size) t.rflags ∧
      Advanced s t (sizeBytes size) (instrLength i) ∧ Kept s t := by
  have hnv : ¬ OnVmePath s := not_onVmePath_of_lowMask hl
  have hrp : ReachesPop s size := by
    by_contra hn
    simp only [ReachesPop, not_or, Bool.not_eq_false] at hn
    obtain ⟨hvm, hiopl, -⟩ := hn
    simp [lowMask_eq_none_iff.2 ⟨hvm, hiopl⟩] at hl
  obtain ⟨t, ht, hadv⟩ := execSized_completes (instrLength i) hc hz hrp hr (fun h => hnv h.1) hip
  rw [← exec_of_formSize hf] at ht
  obtain ⟨size', hf', ⟨low', hl', -, hflags⟩ | ⟨hpath, -⟩⟩ := exec_next_flags ht
  · obtain rfl : size' = size := by simpa [hf'] using hf
    obtain rfl : low' = low := by simpa [hl'] using hl
    exact ⟨t, ht, hflags, hadv, exec_kept ht⟩
  · exact absurd hpath hnv

/-! The instruction pointer -/

/-- Settles O38: every next state is a completed pop that does not wrap rIP, and a fault leaves the old state. -/
theorem instructionPointerAdvances : Obligations.InstructionPointerAdvances := by
  refine fun i s => ⟨fun t h => ?completes, fun f h => ?faults⟩
  case completes =>
    obtain ⟨size, -, h⟩ := exec_next h
    obtain ⟨-, -, -, hip, p, flags, -, rfl, -⟩ := execSized_next h
    exact (afterPop_ip flags p hip).1
  case faults => rw [h]; rfl

/-! VIP, VM and VIF -/

/-- R19: the operating mode is a reading of VM and of what every instruction keeps. -/
theorem Kept.operatingMode {s t : State} (h : Kept s t) (hvm : t.vm = s.vm) : t.operatingMode = s.operatingMode := by
  simp only [State.operatingMode, State.ModeConsistent, hvm, h.cr0, h.cr4, h.cpl, h.codeMode]

/-- R65: on the path of the extensions VIF takes bit 9 of the image. -/
theorem exec_next_vif_of_onVmePath {i : Instr} {s t : State} (h : exec i s = .next t) (hpath : OnVmePath s) :
    flag t.rflags 19 = imageBit s 9 := by
  obtain ⟨-, -, ⟨low, hl, -⟩ | ⟨-, -, -, hflags⟩⟩ := exec_next_flags h
  · exact absurd hpath (not_onVmePath_of_lowMask hl)
  · exact hflags 19 (by decide)

/-- Settles O19: VIP and VM are not writable, VIF is not but by the extensions, and the mode reads VM and the frame. -/
theorem virtualFlagsAreKept : Obligations.VirtualFlagsAreKept := by
  intro i s t h
  have hvip : flag t.rflags 20 = flag s.rflags 20 :=
    exec_next_unwritable h (by decide) nofun (by decide)
  have hvm : flag t.rflags 17 = flag s.rflags 17 :=
    exec_next_unwritable h (by decide) nofun (by decide)
  have hvif (hpath : ¬ OnVmePath s) : flag t.rflags 19 = flag s.rflags 19 :=
    exec_next_unwritable h (by decide) (fun _ => hpath) (by decide)
  exact ⟨hvip, hvm, exec_next_vif_of_onVmePath h, hvif, (exec_kept h).operatingMode hvm⟩

/-! Privilege -/

/-- R13: IOPL is bits 13:12. -/
theorem State.iopl_eq_of_bits {s t : State} (h : ∀ k ∈ [12, 13], t.rflags.getLsbD k = s.rflags.getLsbD k) :
    t.iopl = s.iopl := by
  refine BitVec.eq_of_getLsbD_eq fun k hk => ?_
  rw [State.iopl, State.iopl, BitVec.getLsbD_extractLsb', BitVec.getLsbD_extractLsb', h (12 + k) (by simp; omega)]

/-- R61: the two masks of CPL > 0 take the arithmetic flags, TF, DF, OF and NT, at every operand size. -/
theorem unprivileged_mask_arith {low : Word64} (hl : low = 0x4DD5 ∨ low = 0x4FD5) {size : OperandSize} {k : Nat}
    (hk : k ∈ [0, 2, 4, 6, 7, 8, 10, 11, 14]) : (low ||| highMask size).getLsbD k = true := by
  revert k
  obtain rfl | rfl := hl <;> cases size <;> decide

/-- R61: they do not take IOPL. -/
theorem unprivileged_mask_iopl {low : Word64} (hl : low = 0x4DD5 ∨ low = 0x4FD5) {size : OperandSize} {k : Nat}
    (hk : k ∈ [12, 13]) : (low ||| highMask size).getLsbD k = false := by
  revert k
  obtain rfl | rfl := hl <;> cases size <;> decide

/-- R61: AC and ID are taken at operand sizes 32 and 64, whatever the levels are. -/
theorem mask_acId {size : OperandSize} (hsize : size ≠ .s16) (low : Word64) {k : Nat} (hk : k ∈ [18, 21]) :
    (low ||| highMask size).getLsbD k = true := by
  have hbits : ∀ k ∈ [18, 21], acIdMask.getLsbD k = true := by decide
  have hhigh : highMask size = acIdMask := by
    cases size
    · exact absurd rfl hsize
    · rfl
    · rfl
  rw [hhigh, BitVec.getLsbD_or, hbits k hk, Bool.or_true]

/-- Settles O21: outside virtual-8086 mode a mask is always defined, and at CPL > 0 it is one of two that leave IOPL out and
differ in IF. -/
theorem insufficientPrivilegeIsSilent : Obligations.InsufficientPrivilegeIsSilent := by
  intro i size s hf hc hz hvm hpe hcpl hr hip
  obtain ⟨low, hl⟩ : ∃ low, lowMask s.vm s.cr0.pe s.effectiveCpl s.iopl = some low :=
    Option.ne_none_iff_exists'.1 (by simp [lowMask_eq_none_iff, hvm])
  obtain ⟨t, ht, hflags, hadv, -⟩ := exec_completes_of_lowMask hf hc hz hl hr hip
  have heff : s.effectiveCpl = s.cpl := by simp [State.effectiveCpl, hpe]
  have hlow : low = 0x4DD5 ∨ low = 0x4FD5 := by
    rcases lt_or_ge s.iopl.toNat s.cpl.toNat with hbelow | hwithin
    · exact .inl (lowMask_ioplBelow hc hl (heff ▸ hbelow))
    · exact .inr (lowMask_ioplAtLeast hc hl (heff ▸ hcpl) (heff ▸ hwithin))
  refine ⟨t, ht, ?iopl, fun hbelow => ?ifKept, fun hwithin => ?ifTaken, exec_next_rf ht, hadv.stackPointer,
    fun k hk => FlagsTaken.taken hflags (unprivileged_mask_arith hlow hk),
    fun hsize k hk => FlagsTaken.taken hflags (mask_acId hsize low hk)⟩
  case iopl =>
    exact State.iopl_eq_of_bits fun k hk =>
      FlagsTaken.kept hflags (by simp at hk; omega) (unprivileged_mask_iopl hlow hk) (by simp at hk; omega)
  case ifKept =>
    obtain rfl : low = 0x4DD5 := lowMask_ioplBelow hc hl (heff ▸ hbelow)
    exact FlagsTaken.kept hflags (by decide) (by cases size <;> decide) (by decide)
  case ifTaken =>
    obtain rfl : low = 0x4FD5 := lowMask_ioplAtLeast hc hl (heff ▸ hcpl) (heff ▸ hwithin)
    exact FlagsTaken.taken hflags (by cases size <;> decide)

/-! Virtual-8086 mode -/

/-- R27: virtual-8086 mode is a legacy mode. -/
theorem codeMode_of_vm {s : State} (hc : s.ModeConsistent) (hvm : s.vm = true) : s.codeMode = .legacy := by
  obtain ⟨-, -, hlegacy, -⟩ := hc
  exact hlegacy hvm

/-- R19, R27: there is no 64-bit operand in virtual-8086 mode. -/
theorem size_ne_s64_of_vm {s : State} {size : OperandSize} (hc : s.ModeConsistent) (hz : s.SizeConsistent size)
    (hvm : s.vm = true) : size ≠ .s64 := fun h64 => by
  simpa [codeMode_of_vm hc hvm] using hz.1 h64

/-- R13: IOPL < 3, as R65 and R66 ask it and as the table prints it. -/
theorem State.iopl_ne_three_iff (s : State) : s.iopl ≠ 3 ↔ s.iopl.toNat < 3 := by
  have h3 : s.iopl = 3 ↔ s.iopl.toNat = 3 := BitVec.toNat_inj.symm
  rw [ne_eq, h3]
  omega

/-- R66: the core's early #GP(0), of the instruction. -/
theorem exec_early {i : Instr} {size : OperandSize} {s : State} (hf : formSize i = some size) (hc : s.ModeConsistent)
    (hz : s.SizeConsistent size) (hvm : s.vm = true) (hiopl : s.iopl.toNat < 3) (h : s.cr4.vme = false ∨ size = .s32) :
    exec i s = .fault (.generalProtection 0) := by
  rw [exec_of_formSize hf]
  exact execSized_early _ hc hz hvm (s.iopl_ne_three_iff.2 hiopl) h.symm

/-- Settles O23: below IOPL 3 no mask is defined and the core raises before its pop; at IOPL 3 the mask of CPL ≤ IOPL is. -/
theorem virtual8086BelowIopl3Faults : Obligations.Virtual8086BelowIopl3Faults := by
  refine ⟨fun i size s hf hc hz hvm hiopl h => ?below, fun p s hc hvm hiopl hr hip => ?at3⟩
  case below =>
    have hfault := exec_early hf hc hz hvm hiopl h
    exact ⟨hfault, by rw [hfault]; rfl⟩
  case at3 =>
    have hz : s.SizeConsistent .s32 := ⟨nofun, fun _ => by simp [codeMode_of_vm hc hvm]⟩
    have hl : lowMask s.vm s.cr0.pe s.effectiveCpl s.iopl = some 0x4FD5 := by simp [lowMask, hvm, hiopl, arithNtMask, ifMask]
    exact exec_completes_of_lowMask (size := .s32) rfl hc hz hl hr hip

end Sys2Proof.Machine

/-! PROOF. The image bits that are not writable have no effect (spec 40_popf.md R67, R69). Another memory, `State.withMem`, whose
image agrees in the writable bits is passed through the pop, the two updates and the core; RF and the reserved bits are not
writable, so each of the two statements is a case of `exec_withMem`. -/

namespace Sys2Proof.Machine

/-- The state with another memory. -/
def State.withMem (s : State) (m : Memory) : State := { s with mem := m }

/-- The images that two memories give agree in the bits that the operand size can take. -/
def ImageAgrees (size : OperandSize) (s : State) (m : Memory) : Prop :=
  ∀ k, (writableMask size).getLsbD k = true → imageBit (s.withMem m) k = imageBit s k

section WithMem

variable {s : State} {m : Memory}

@[simp] theorem State.withMem_rflags : (s.withMem m).rflags = s.rflags := rfl
@[simp] theorem State.withMem_vip : (s.withMem m).vip = s.vip := rfl
@[simp] theorem State.withMem_stackPointer : (s.withMem m).stackPointer = s.stackPointer := rfl
@[simp] theorem State.withMem_rspWith (v : Nat) : (s.withMem m).rspWith v = s.rspWith v := rfl
@[simp] theorem State.withMem_drawsAfterPop : (s.withMem m).drawsAfterPop = s.drawsAfterPop := rfl

/-- R31: whether and why a pop stops does not depend on what memory holds. -/
theorem PopStops.withMem {n : Nat} {e : Stop} (h : PopStops s n e) : PopStops (s.withMem m) n e := by
  cases h with
  | wrap hr => exact .wrap hr
  | segment hr hs => exact .segment hr hs
  | page k code hr hs hk hb ht => exact .page k code hr hs hk hb ht
  | align hr hs hm ha => exact .align hr hs hm ha
  | device hr hs hm ha ho => exact .device hr hs hm ha ho

/-- R31: with another memory a pop stops for the same reason, or gives its own image. -/
theorem pop_withMem_cases (s : State) (m : Memory) (n : Nat) :
    (∃ e, pop n s = .error e ∧ pop n (s.withMem m) = .error e) ∨
    (∃ p p', pop n s = .ok p ∧ pop n (s.withMem m) = .ok p' ∧ PoppedIs s n p ∧ PoppedIs (s.withMem m) n p') := by
  obtain ⟨p, hp, hr, his⟩ | ⟨e, he, hs⟩ := pop_cases s n
  · obtain ⟨p', hp', his'⟩ := pop_of_readable (s := s.withMem m) hr
    exact .inr ⟨p, p', hp, hp', his, his'⟩
  · exact .inl ⟨e, he, pop_of_stops hs.withMem⟩

/-- R60: completing with other memory: the image has its effect through the new flags alone. -/
theorem complete_withMem {p p' : Popped} {n length : Nat} (flags : Word64) (h : PoppedIs s n p)
    (h' : PoppedIs (s.withMem m) n p') :
    complete (s.withMem m) flags p' length = mapNext (·.withMem m) (complete s flags p length) := by
  have hrsp : p'.rsp = p.rsp := by rw [h'.rsp, h.rsp, State.withMem_rspWith, State.withMem_stackPointer]
  have hdraws : p'.draws = p.draws := by rw [h'.draws, h.draws, State.withMem_drawsAfterPop]
  have hafter : (s.withMem m).afterPop flags p' length = (s.afterPop flags p length).withMem m := by
    simp only [State.afterPop, hrsp, hdraws, State.withMem]
  unfold complete
  rw [apply_ite (mapNext _), hafter]
  rfl

theorem popMasked_withMem {size : OperandSize} {low : Word64} (length : Nat)
    (hlow : low = 0x7FD5 ∨ low = 0x4DD5 ∨ low = 0x4FD5) (h : ImageAgrees size s m) :
    popMasked size (low ||| highMask size) length (s.withMem m) =
      mapNext (·.withMem m) (popMasked size (low ||| highMask size) length s) := by
  obtain ⟨e, he, he'⟩ | ⟨p, p', hp, hp', his, his'⟩ := pop_withMem_cases s m (sizeBytes size)
  · simp only [popMasked, he, he', mapNext_stopWith]
  · have hbits {k : Nat} (hk : (low ||| highMask size).getLsbD k = true) := writeMask_bit_lt hlow hk
    have hflags : maskedFlags s.rflags p'.image (low ||| highMask size) =
        maskedFlags s.rflags p.image (low ||| highMask size) := by
      refine BitVec.eq_of_getLsbD_eq fun k hk => ?_
      rw [flagsTaken_maskedFlags his (fun _ => hbits) k hk]
      refine (flagsTaken_maskedFlags his' (fun _ => hbits) k hk).trans (ite_congr rfl (fun hm => ?_) fun _ => rfl)
      exact h k (writableMask_of_low hlow hm)
    simp only [popMasked, hp, hp', State.withMem_rflags, hflags, complete_withMem _ his his']

theorem popVme_withMem (length : Nat) (h : ImageAgrees .s16 s m) :
    popVme length (s.withMem m) = mapNext (·.withMem m) (popVme length s) := by
  obtain ⟨e, he, he'⟩ | ⟨p, p', hp, hp', his, his'⟩ := pop_withMem_cases s m (sizeBytes .s16)
  · simp only [popVme, he, he', mapNext_stopWith]
  · have h8 : imageBit (s.withMem m) 8 = imageBit s 8 := h 8 (by decide)
    have h9 : imageBit (s.withMem m) 9 = imageBit s 9 := h 9 (by decide)
    have hfaults : vmeImageFaults s.vip p'.image = vmeImageFaults s.vip p.image := by
      rw [Bool.eq_iff_iff, vmeImageFaults_iff le_rfl his, ← State.withMem_vip (m := m), vmeImageFaults_iff le_rfl his',
        TableNotes23, TableNotes23, h8, h9, State.withMem_vip]
    have hflags : vmeFlags s.rflags p'.image = vmeFlags s.rflags p.image := by
      refine BitVec.eq_of_getLsbD_eq fun k hk => ?_
      rw [vmeFlags_imageBit his hk]
      refine (vmeFlags_imageBit his' hk).trans
        (ite_congr rfl (fun _ => h9) fun _ => ite_congr rfl (fun hm => ?_) fun _ => rfl)
      exact h k (writableMask_of_low (.inr (.inl rfl)) (size := .s16) hm)
    simp only [popVme, hp, hp', State.withMem_rflags, State.withMem_vip, hfaults, hflags, complete_withMem _ his his',
      apply_ite (mapNext _), mapNext_raise]

/-- The branch of R60 is chosen by readings that memory has no part in, and each branch commutes with the change. -/
theorem execSized_withMem {size : OperandSize} (length : Nat) (h : ImageAgrees size s m) :
    execSized size length (s.withMem m) = mapNext (·.withMem m) (execSized size length s) := by
  by_cases hc : s.ModeConsistent ∧ s.SizeConsistent size
  case neg =>
    have hc' : ¬ ((s.withMem m).ModeConsistent ∧ (s.withMem m).SizeConsistent size) := hc
    rw [execSized, if_neg hc', execSized, if_neg hc, mapNext_refused]
  obtain ⟨hmode, hsize⟩ := hc
  cases hm : writeMask s.vm s.cr0.pe s.effectiveCpl s.iopl size with
  | some mask =>
    obtain ⟨low, hlow, rfl⟩ := writeMask_cases hm
    rw [execSized_masked length hmode hsize hm, ← popMasked_withMem length hlow h]
    exact execSized_masked (s := s.withMem m) length hmode hsize hm
  | none =>
    obtain ⟨hvm, hiopl⟩ := writeMask_eq_none_iff.1 hm
    by_cases hearly : size = .s32 ∨ s.cr4.vme = false
    · rw [execSized_early length hmode hsize hvm hiopl hearly, mapNext_fault]
      exact execSized_early (s := s.withMem m) length hmode hsize hvm hiopl hearly
    · obtain ⟨hs32, hvme⟩ := not_or.1 hearly
      have hpath : OnVmePath s := ⟨hvm, by simpa using hvme, hiopl⟩
      obtain rfl : size = .s16 := by
        cases size with
        | s16 => rfl
        | s32 => exact absurd rfl hs32
        | s64 => exact absurd rfl (size_ne_s64_of_vm hmode hsize hvm)
      rw [execSized_vme length hmode hpath, ← popVme_withMem length h]
      exact execSized_vme (s := s.withMem m) length hmode hpath

/-- R60, R61, R65: with another memory whose image agrees in the writable bits, an instruction does the same. -/
theorem exec_withMem {i : Instr} {size : OperandSize} (hf : formSize i = some size) (h : ImageAgrees size s m) :
    exec i (s.withMem m) = mapNext (·.withMem m) (exec i s) := by
  rw [exec_of_formSize hf, exec_of_formSize hf, execSized_withMem _ h]

end WithMem

/-- Settles O18: RF is not writable, so it is cleared whatever bit 16 of the image is. -/
theorem resumeFlagIsCleared : Obligations.ResumeFlagIsCleared := by
  refine ⟨fun i s t h => exec_next_rf h, fun i size s m hf h => ?image, fun i s f h => ?fault⟩
  case image =>
    refine exec_withMem hf fun k hk => ?_
    obtain ⟨hlt, hne, -⟩ := writableMask_bit hk
    exact h k hlt hne
  case fault => rw [h]; rfl

/-- Settles O20: no reserved bit is writable. -/
theorem reservedBitsAreKeptAndIgnored : Obligations.ReservedBitsAreKeptAndIgnored := by
  refine ⟨fun i s t h => ?kept, fun i size s m hf h => ?image⟩
  case kept =>
    refine BitVec.eq_of_getLsbD_eq fun k hk => ?_
    rw [BitVec.getLsbD_and, BitVec.getLsbD_and]
    cases hres : reservedMask.getLsbD k with
    | false => rw [Bool.and_false, Bool.and_false]
    | true =>
      have hrf : k ≠ 16 := by rintro rfl; exact absurd hres (by decide)
      have hvif : k ≠ 19 := by rintro rfl; exact absurd hres (by decide)
      have hw : (writableMask .s64).getLsbD k = false := by
        by_contra hw
        obtain ⟨-, -, hnres⟩ := writableMask_bit (by simpa using hw)
        simp [hnres] at hres
      rw [exec_next_unwritable h hk (absurd · hvif) hw, if_neg hrf]
  case image =>
    refine exec_withMem hf fun k hk => ?_
    obtain ⟨hlt, -, hres⟩ := writableMask_bit hk
    exact h k hlt hres

end Sys2Proof.Machine

/-! PROOF. Table 4-15 (spec 40_popf.md R72). A row with a cell a column prints the mask of its levels and operand size: what each
such row says is `maskCell`, or `vmeCell` on the row of notes 2 and 3, at every bit of every column. That is a property of the
printed rows alone (`table415_printed`), so that no proof about a state goes through them one by one. -/

namespace Sys2Proof.Machine

/-! What the rows print -/

/-- R60: the cell of a bit under a mask. -/
def maskCell (mask : Word64) (k : Nat) : TableCell :=
  if mask.getLsbD k = true then .S else if k = 16 then .Z else .N

/-- R65: the cell of a bit under the extensions. -/
def vmeCell (k : Nat) : TableCell := if k = 19 then .SV else maskCell 0x4DD5 k

/-- R61: the mask of a row's CPL and IOPL cells, wherever one is defined. -/
def TableLevels.low (l : TableLevels) : Word64 :=
  match l with
  | .cplZero                 => 0x7FD5
  | .ioplBelow | .ioplBelow3 => 0x4DD5
  | .ioplAtLeast | .iopl3    => 0x4FD5

/-- R61: the mask of a row, AC and ID added where its operand size is not 16. -/
def tableRowMask (levels : TableLevels) (wide : Bool) : Word64 := levels.low ||| if wide = true then acIdMask else 0

/-- The cells of a row are what `f` gives, at each bit of each column. -/
abbrev CellsPrint (cells : List TableCell) (f : Nat → TableCell) : Prop :=
  ∀ c ∈ cells.zip tableColumns, ∀ k ∈ c.2, k < 64 ∧ c.1 = f k

/-- R72: where the rows of "X", of a mask and of the extensions stand in the table, and what the cells of each are. -/
def tableRowPrinted (r : TableRow) : Bool :=
  match r.outcome with
  | .noUpdate => decide (r.levels = .ioplBelow3 ∧ (r.mode = .virtual8086 ∨ (r.mode = .vme ∧ r.wide = true)))
  | .update cells => decide ((r.mode = .vme → r.levels = .iopl3) ∧ CellsPrint cells (maskCell (tableRowMask r.levels r.wide)))
  | .updateUnlessNotes23 cells =>
    decide (r.mode = .vme ∧ r.levels = .ioplBelow3 ∧ r.wide = false ∧ CellsPrint cells vmeCell)

/-- R72: the sixteen printed rows, cell by cell. -/
theorem table415_printed : ∀ r ∈ table415, tableRowPrinted r = true := by decide

/-! What a row's head says of the state -/

section RowHead

variable {s : State} {size : OperandSize}

theorem tableRowApplies_iff {r : TableRow} :
    tableRowApplies r s size = true ↔
      tableModeApplies r.mode s = true ∧ tableLevelsApply r.levels s = true ∧ r.wide = decide (size ≠ .s16) := by
  simp [tableRowApplies, and_assoc]

theorem tableModeApplies_virtual8086 (h : tableModeApplies .virtual8086 s = true) : s.vm = true ∧ s.cr4.vme = false := by
  simp only [tableModeApplies, Bool.and_eq_true, Bool.not_eq_true'] at h
  obtain ⟨⟨-, hvm⟩, hvme⟩ := h
  exact ⟨hvm, hvme⟩

theorem tableModeApplies_vme (h : tableModeApplies .vme s = true) : s.vm = true ∧ s.cr4.vme = true := by
  simp only [tableModeApplies, Bool.and_eq_true] at h
  obtain ⟨⟨-, hvm⟩, hvme⟩ := h
  exact ⟨hvm, hvme⟩

/-- R19: on the path of the extensions the rows are those of virtual-8086 mode with the extensions. -/
theorem tableMode_of_onVmePath {m : TableMode} (hc : s.ModeConsistent) (hpath : OnVmePath s)
    (h : tableModeApplies m s = true) : m = .vme := by
  obtain ⟨hvm, hvme, -⟩ := hpath
  have hpe : s.cr0.pe ≠ false := fun hpe => by simp [hc.1 hpe] at hvm
  cases m <;> simp_all [tableModeApplies]

/-- R13: the cells "CPL 3, IOPL 0-2" and "CPL 3, IOPL 3". -/
theorem iopl_of_ioplBelow3 (h : tableLevelsApply .ioplBelow3 s = true) : s.iopl.toNat < 3 := (of_decide_eq_true h).2

theorem iopl_of_iopl3 (h : tableLevelsApply .iopl3 s = true) : ¬ s.iopl ≠ 3 := by
  have h3 : s.iopl.toNat = 3 := (of_decide_eq_true h).2
  rw [s.iopl_ne_three_iff, h3]
  decide

/-- R61: where a mask is defined, it is that of the row's levels. -/
theorem low_eq_of_tableLevels {l : TableLevels} {low : Word64} (hc : s.ModeConsistent)
    (hl : lowMask s.vm s.cr0.pe s.effectiveCpl s.iopl = some low) (h : tableLevelsApply l s = true) : low = l.low := by
  cases l with
  | cplZero => exact lowMask_cplZero hc hl (of_decide_eq_true h)
  | ioplBelow => exact lowMask_ioplBelow hc hl (of_decide_eq_true h).2
  | ioplAtLeast => exact lowMask_ioplAtLeast hc hl (of_decide_eq_true h).1 (of_decide_eq_true h).2
  | ioplBelow3 =>
    obtain ⟨hcpl, hiopl⟩ := of_decide_eq_true h
    exact lowMask_ioplBelow hc hl (by rw [hcpl]; exact hiopl)
  | iopl3 =>
    obtain ⟨hcpl, hiopl⟩ := of_decide_eq_true h
    exact lowMask_ioplAtLeast hc hl (by rw [hcpl]; decide) (by rw [hcpl, hiopl]; decide)

/-- R61: the operand size cell tells whether AC and ID are in the mask. -/
theorem tableRowMask_size (l : TableLevels) (size : OperandSize) :
    tableRowMask l (decide (size ≠ .s16)) = l.low ||| highMask size := by
  cases size <;> rfl

end RowHead

/-! What the cells say of the new flags -/

section Cells

variable {s t : State} {cells : List TableCell}

theorem tableCellsHold_of_print {f : Nat → TableCell} (hp : CellsPrint cells f)
    (h : ∀ k < 64, t.rflags.getLsbD k = tableCellBit (f k) s k) : TableCellsHold cells s t := by
  intro c hc k hk
  obtain ⟨hlt, hcell⟩ := hp c hc k hk
  rw [h k hlt, hcell]

theorem tableCellBit_maskCell (mask : Word64) (s : State) (k : Nat) :
    tableCellBit (maskCell mask k) s k =
      if mask.getLsbD k = true then imageBit s k else if k = 16 then false else s.rflags.getLsbD k := by
  unfold maskCell
  split_ifs <;> rfl

theorem tableCellBit_vmeCell (s : State) (k : Nat) :
    tableCellBit (vmeCell k) s k =
      if k = 19 then imageBit s 9 else tableCellBit (maskCell 0x4DD5 k) s k := by
  unfold vmeCell
  split_ifs <;> rfl

/-- R60: a mask's cells hold where its bits are taken. -/
theorem tableCellsHold_of_flagsTaken {mask : Word64} (hp : CellsPrint cells (maskCell mask))
    (h : FlagsTaken s mask t.rflags) : TableCellsHold cells s t :=
  tableCellsHold_of_print hp fun k hk => by rw [h k hk, tableCellBit_maskCell]

end Cells

/-! The three kinds of rows -/

/-- R65: the core's late #GP(0), on a readable stack whose image notes 2 and 3 name. -/
theorem execSized_of_notes23 {s : State} (n : Nat) (hc : s.ModeConsistent) (hpath : OnVmePath s) (hr : StackReadable s 2)
    (hn : TableNotes23 s) : execSized .s16 n s = .fault (.generalProtection 0) := by
  obtain ⟨p, hp, his⟩ := pop_of_readable (n := sizeBytes .s16) hr
  rw [execSized_vme n hc hpath, popVme, hp]
  exact if_pos ((vmeImageFaults_iff le_rfl his).2 hn)

/-- Settles O16: a row of "X" is where the core raises early; the other rows print the mask of their levels and operand size,
but for the one of notes 2 and 3, which prints the update of the extensions. -/
theorem table415Holds : Obligations.Table415Holds := by
  intro i size s r hf hc hz hr happ
  have hprinted := table415_printed r hr
  obtain ⟨hmode, hlevels, hwide⟩ := tableRowApplies_iff.1 happ
  obtain ⟨mode, wide, levels, outcome⟩ := r
  dsimp only at hmode hlevels hwide ⊢
  subst hwide
  cases outcome with
  | noUpdate =>
    obtain ⟨rfl, hrow⟩ := of_decide_eq_true hprinted
    have hiopl := iopl_of_ioplBelow3 hlevels
    obtain rfl | ⟨rfl, hwide⟩ := hrow
    · obtain ⟨hvm, hvme⟩ := tableModeApplies_virtual8086 hmode
      exact exec_early hf hc hz hvm hiopl (.inl hvme)
    · obtain ⟨hvm, -⟩ := tableModeApplies_vme hmode
      have hs32 : size = .s32 := by
        cases size with
        | s16 => cases hwide
        | s32 => rfl
        | s64 => exact absurd rfl (size_ne_s64_of_vm hc hz hvm)
      exact exec_early hf hc hz hvm hiopl (.inr hs32)
  | update cells =>
    obtain ⟨hvme, hcells⟩ := of_decide_eq_true hprinted
    rw [tableRowMask_size] at hcells
    intro t ht
    obtain ⟨size', hf', ⟨low, hl, -, hflags⟩ | ⟨hpath, -⟩⟩ := exec_next_flags ht
    · obtain rfl : size' = size := by simpa [hf'] using hf
      rw [← low_eq_of_tableLevels hc hl hlevels] at hcells
      exact tableCellsHold_of_flagsTaken hcells hflags
    · obtain rfl : levels = .iopl3 := hvme (tableMode_of_onVmePath hc hpath hmode)
      exact absurd hpath.2.2 (iopl_of_iopl3 hlevels)
  | updateUnlessNotes23 cells =>
    obtain ⟨rfl, rfl, hwide, hcells⟩ := of_decide_eq_true hprinted
    obtain ⟨hvm, hvme⟩ := tableModeApplies_vme hmode
    have hpath : OnVmePath s := ⟨hvm, hvme, s.iopl_ne_three_iff.2 (iopl_of_ioplBelow3 hlevels)⟩
    refine ⟨fun t ht => ?completes, fun hread hnotes => ?notes⟩
    case completes =>
      obtain ⟨-, -, ⟨low, hl, -⟩ | ⟨-, -, hnotes, hflags⟩⟩ := exec_next_flags ht
      · exact absurd hpath (not_onVmePath_of_lowMask hl)
      · refine ⟨tableCellsHold_of_print hcells fun k hk => ?_, hnotes⟩
        rw [hflags k hk, tableCellBit_vmeCell, tableCellBit_maskCell]
    case notes =>
      obtain rfl : size = .s16 := by simpa using hwide
      rw [exec_of_formSize hf, execSized_of_notes23 _ hc hpath hread hnotes]

end Sys2Proof.Machine

/-! PROOF. The faults of an instruction and what each presupposes (spec 60_exceptions.md R90 to R98). `exec_fault` says once what
a fault can be, in the order of R98; `PopStops` carries the conditions of the faults of the stack read. -/

namespace Sys2Proof.Machine

/-! The operating mode -/

section OperatingMode

variable {s : State} {m : OperatingMode}

/-- R19, R27: everything an operating mode says of the state. -/
theorem operatingMode_cases (h : s.operatingMode = some m) :
    s.ModeConsistent ∧
      ((s.cr0.pe = false ∧ s.vm = false ∧ m = .realAddress) ∨
       (s.cr0.pe = true ∧ s.vm = true ∧ (m = .virtual8086 ∨ m = .virtual8086Vme)) ∨
       (s.cr0.pe = true ∧ s.vm = false ∧
         ((s.codeMode = .legacy ∧ m = .protectedMode) ∨ (s.codeMode = .compatibility ∧ m = .compatibilityMode) ∨
          (s.codeMode = .bits64 ∧ m = .mode64)))) := by
  unfold State.operatingMode at h
  split_ifs at h with hc hpe hvm hvme
  · cases h
    exact ⟨hc, .inl ⟨hpe, hc.1 hpe, rfl⟩⟩
  · cases h
    exact ⟨hc, .inr (.inl ⟨by simpa using hpe, hvm, .inr rfl⟩)⟩
  · cases h
    exact ⟨hc, .inr (.inl ⟨by simpa using hpe, hvm, .inl rfl⟩)⟩
  · refine ⟨hc, .inr (.inr ⟨by simpa using hpe, by simpa using hvm, ?_⟩)⟩
    cases hcode : s.codeMode <;> simpa [hcode, eq_comm] using h

/-- R19: a consistent state is in real-address mode exactly where PE = 0. -/
theorem operatingMode_eq_realAddress_iff (hc : s.ModeConsistent) : s.operatingMode = some .realAddress ↔ s.cr0.pe = false := by
  constructor
  · intro h
    obtain ⟨-, ⟨hpe, -⟩ | ⟨-, -, hm⟩ | ⟨-, -, hm⟩⟩ := operatingMode_cases h
    · exact hpe
    · simp at hm
    · simp at hm
  · intro hpe
    rw [State.operatingMode, if_pos hc, if_pos hpe]

/-- R19: VM is set in the two virtual-8086 modes only. -/
theorem operatingMode_of_vm (h : s.operatingMode = some m) (hvm : s.vm = true) : m = .virtual8086 ∨ m = .virtual8086Vme := by
  obtain ⟨-, ⟨-, hnvm, -⟩ | ⟨-, -, hm⟩ | ⟨-, hnvm, -⟩⟩ := operatingMode_cases h
  · simp [hvm] at hnvm
  · exact hm
  · simp [hvm] at hnvm

/-- R19, R27: what 64-bit mode is. -/
theorem state_of_mode64 (h : s.operatingMode = some .mode64) : s.ModeConsistent ∧ s.vm = false ∧ s.codeMode = .bits64 := by
  obtain ⟨hc, ⟨-, -, hm⟩ | ⟨-, -, hm⟩ | ⟨-, hvm, hm⟩⟩ := operatingMode_cases h
  · cases hm
  · simp at hm
  · exact ⟨hc, hvm, by simpa using hm⟩

end OperatingMode

/-! What a fault can be -/

section Faults

variable {i : Instr} {size : OperandSize} {s : State} {n : Nat} {f : Fault}

/-- R27: the core raises nothing in a state that R27 excludes. -/
theorem consistent_of_execSized_fault (h : execSized size n s = .fault f) : s.ModeConsistent ∧ s.SizeConsistent size := by
  unfold execSized at h
  split at h
  case isTrue hc => exact hc
  case isFalse => cases h

/-- R98: everything an instruction can do when it answers a fault. -/
theorem exec_fault (h : exec i s = .fault f) :
    (formSize i = none ∧ f = .invalidOpcode) ∨
    ∃ size, formSize i = some size ∧
      ((¬ ReachesPop s size ∧ f = .generalProtection 0) ∨
       (ReachesPop s size ∧ (PopStops s (sizeBytes size) (.fault f) ∨
         (StackReadable s (sizeBytes size) ∧ OnVmePath s ∧ TableNotes23 s ∧ f = .generalProtection 0)))) := by
  cases hf : formSize i with
  | none =>
    rw [exec_of_formSize_none hf] at h
    cases h
    exact .inl ⟨rfl, rfl⟩
  | some size =>
    rw [exec_of_formSize hf] at h
    obtain ⟨hc, hz⟩ := consistent_of_execSized_fault h
    exact .inr ⟨size, rfl, execSized_fault hc hz h⟩

/-- R98: a fault that is neither #UD nor #GP(0) is one of the stack read, on a path that reaches it. -/
theorem popStops_of_exec_fault (h : exec i s = .fault f) (hud : f ≠ .invalidOpcode) (hgp : f ≠ .generalProtection 0) :
    ∃ size, formSize i = some size ∧ ReachesPop s size ∧ PopStops s (sizeBytes size) (.fault f) := by
  obtain ⟨-, rfl⟩ | ⟨size, hf, ⟨-, rfl⟩ | ⟨hrp, hstop | ⟨-, -, -, rfl⟩⟩⟩ := exec_fault h
  · exact absurd rfl hud
  · exact absurd rfl hgp
  · exact ⟨size, hf, hrp, hstop⟩
  · exact absurd rfl hgp

/-- R31: an instruction that reaches its pop, where the pop has a reason to fault. -/
theorem exec_fault_of_popStops (hf : formSize i = some size) (hc : s.ModeConsistent) (hz : s.SizeConsistent size)
    (hrp : ReachesPop s size) (h : PopStops s (sizeBytes size) (.fault f)) : exec i s = .fault f := by
  rw [exec_of_formSize hf, execSized_of_popStops _ hc hz hrp h]
  rfl

/-- R96: #GP is raised in virtual-8086 mode only. -/
theorem vm_of_exec_generalProtection {code : ErrorCode} (h : exec i s = .fault (.generalProtection code)) : s.vm = true := by
  obtain ⟨-, hud⟩ | ⟨size, -, ⟨hearly, -⟩ | ⟨-, hstop | ⟨-, ⟨hvm, -⟩, -⟩⟩⟩ := exec_fault h
  · cases hud
  · simpa using (not_or.1 hearly).1
  · cases hstop
  · exact hvm

end Faults

/-! #SS -/

/-- R93: the error code of #SS, by the operating mode. -/
theorem stackFaultCode_eq {s : State} (hc : s.ModeConsistent) :
    stackFaultCode s = if s.operatingMode = some .realAddress then none else some 0 := by
  simp only [stackFaultCode, operatingMode_eq_realAddress_iff hc]

/-- Settles O25: bytes outside the segment stop the pop before any later check, and nothing else raises #SS. -/
theorem stackOutsideSegmentFaults : Obligations.StackOutsideSegmentFaults := by
  refine ⟨fun i size s hf hc hz hrp hr hs => ?raised, fun i s code h => ?onlyThere⟩
  case raised =>
    rw [← stackFaultCode_eq hc]
    exact exec_fault_of_popStops hf hc hz hrp (.segment hr hs)
  case onlyThere =>
    obtain ⟨size, hf, hrp, hstop⟩ := popStops_of_exec_fault h nofun nofun
    cases hstop with
    | segment _ hs => exact ⟨size, hf, hrp, hs⟩

/-! #AC -/

/-- R14: the CPL of the rules is 3 only in a protected state. -/
theorem State.effectiveCpl_eq_three_iff (s : State) : s.effectiveCpl = 3 ↔ s.cr0.pe = true ∧ s.cpl = 3 := by
  unfold State.effectiveCpl
  cases s.cr0.pe <;> simp

/-- R36: the test of `AlignmentFault`, spelled out. -/
theorem not_stackAligned_iff {s : State} {n : Nat} :
    ¬ StackAligned s n ↔ stackLinear s s.stackPointer % n ≠ 0 ∧ s.cr0.am = true ∧ s.ac = true ∧ s.cr0.pe = true ∧ s.cpl = 3 := by
  simp only [StackAligned, not_or, Bool.not_eq_false, not_not, s.effectiveCpl_eq_three_iff]

/-- Settles O28: with the earlier faults of the read shut out, #AC(0) is the stop of a read that is not aligned. -/
theorem unalignedStackFaults : Obligations.UnalignedStackFaults := by
  intro i size s hf hc hz hrp hr hs hm
  refine Iff.trans ⟨fun h => ?unaligned, fun ha => ?raised⟩ not_stackAligned_iff
  case unaligned =>
    obtain ⟨size', hf', -, hstop⟩ := popStops_of_exec_fault h nofun nofun
    obtain rfl : size' = size := by simpa [hf'] using hf
    cases hstop with
    | align _ _ _ ha => exact ha
  case raised => exact exec_fault_of_popStops hf hc hz hrp (.align hr hs hm ha)

/-! The order -/

/-- R98: the faults of the stack read, each where none that goes before it applies. -/
theorem PopStops.fault_order {s : State} {n : Nat} {f : Fault} (h : PopStops s n (.fault f)) :
    (¬ StackInSegment s n ∧ f = .stackFault (stackFaultCode s)) ∨
    (StackInSegment s n ∧ ((¬ StackMapped s n ∧ ∃ code, f = .pageFault code) ∨
      (StackMapped s n ∧ ¬ StackAligned s n ∧ f = .alignmentCheck 0))) := by
  cases h with
  | segment _ hs => exact .inl ⟨hs, rfl⟩
  | page k code _ hs hk _ ht => exact .inr ⟨hs, .inl ⟨fun hm => not_mapped_of_error ht (hm k hk), code, rfl⟩⟩
  | align _ hs hm ha => exact .inr ⟨hs, .inr ⟨hm, ha, rfl⟩⟩

/-- Settles O29: what a fault can be, with the stack read's faults in their inner order. -/
theorem faultsOnlyInTheOrderOfPriority : Obligations.FaultsOnlyInTheOrderOfPriority := by
  intro i s f h
  obtain hud | ⟨size, hf, hearly | ⟨hrp, hstop | ⟨hr, hlate⟩⟩⟩ := exec_fault h
  · exact .inl hud
  · exact .inr ⟨size, hf, .inl hearly⟩
  · refine .inr ⟨size, hf, .inr ⟨hrp, ?_⟩⟩
    obtain hss | ⟨hs, hpf | ⟨hm, hac⟩⟩ := hstop.fault_order
    · exact .inl hss
    · exact .inr ⟨hs, .inl hpf⟩
    · exact .inr ⟨hs, .inr ⟨hm, .inl hac⟩⟩
  · have ⟨_, hs, hm, _⟩ := hr
    exact .inr ⟨size, hf, .inr ⟨hrp, .inr ⟨hs, .inr ⟨hm, .inr ⟨hr, hlate⟩⟩⟩⟩⟩

/-! #GP, and #SS in 64-bit mode -/

/-- R31, R32: in 64-bit mode the stack pointer is all of RSP. -/
theorem stackPointer_of_bits64 {s : State} (h : s.codeMode = .bits64) : s.stackPointer = s.rsp.toNat := by
  have hw : s.stackAddrSize = 64 := by simp [State.stackAddrSize, h]
  rw [State.stackPointer, hw, Nat.mod_eq_of_lt s.rsp.isLt]

/-- R34: in 64-bit mode the bytes within the stack are those at a canonical address. -/
theorem stackInSegment_iff_canonical {s : State} {n : Nat} (h : s.codeMode = .bits64) :
    StackInSegment s n ↔ ∀ k < n, canonical s.env.vaBits (s.rsp.toNat + k) = true := by
  simp only [StackInSegment, withinStack, h, stackPointer_of_bits64 h]

/-- Settles O31: #GP needs VM set, and in 64-bit mode O25 speaks of canonical addresses. -/
theorem generalProtectionOnlyInVirtual8086 : Obligations.GeneralProtectionOnlyInVirtual8086 := by
  refine ⟨fun i s m code hmode hm h => ?noGp, fun i size s hf hmode hsize hr hcanon => ?noncanonical⟩
  case noGp =>
    obtain rfl | rfl := operatingMode_of_vm hmode (vm_of_exec_generalProtection h) <;> simp at hm
  case noncanonical =>
    obtain ⟨hc, hvm, h64⟩ := state_of_mode64 hmode
    have hz : s.SizeConsistent size := ⟨fun _ => h64, fun h32 => absurd h32 hsize⟩
    have hs : ¬ StackInSegment s (sizeBytes size) := by
      obtain ⟨k, hk, hcanon⟩ := hcanon
      rw [stackInSegment_iff_canonical h64]
      exact fun hall => by simp [hall k hk] at hcanon
    simpa [hmode] using stackOutsideSegmentFaults.1 i size s hf hc hz (.inl hvm) hr hs

end Sys2Proof.Machine

/-! PROOF. The encoder and the decoder are inverse (spec 30_encoding.md R45 to R58). Both go through the sequence of prefixes: an
encoding is such a sequence and the opcode byte (`encode_eq_prefixBytes`), what the decoder reads begins with one
(`decodeFrom_ok`), and the operand size that R48 gives the prefixes is the one for which R49 has the form. -/

namespace Sys2Proof

/-! The form that the prefixes select -/

section OperandSize

variable (c : DecodeContext) (p : OpSizePrefix)

/-- R48, R49: the forms of an operand size exist where R48 resolves to it. -/
theorem operandSize_eq_s16_iff : operandSize c p = .s16 ↔ wellFormed c (.popf p) = true := by
  obtain ⟨mode, size⟩ := c
  cases mode <;> cases size <;> cases p <;> decide

theorem operandSize_eq_s32_iff : operandSize c p = .s32 ↔ wellFormed c (.popfd p) = true := by
  obtain ⟨mode, size⟩ := c
  cases mode <;> cases size <;> cases p <;> decide

theorem operandSize_eq_s64_iff : operandSize c p = .s64 ↔ p = .absent ∧ wellFormed c .popfq = true := by
  obtain ⟨mode, size⟩ := c
  cases mode <;> cases size <;> cases p <;> decide

end OperandSize

/-- R48: the prefixes consumed, where the operand-size override alone may stand. -/
def opSizePrefixes (p : OpSizePrefix) : Prefixes :=
  match p with
  | .absent  => .none
  | .present => .opSize

theorem selectInstr_opSizePrefixes (c : DecodeContext) (p : OpSizePrefix) :
    selectInstr c (opSizePrefixes p) = selectForm c p := by
  cases p <;> rfl

theorem prefixBytes_opSizePrefixes (p : OpSizePrefix) : prefixBytes (opSizePrefixes p) = encodeOpSize p := by
  cases p <;> rfl

/-- R48, R49: an encoding without LOCK selects a form that exists, and has the bytes of this form. -/
theorem selectForm_encodes (c : DecodeContext) (p : OpSizePrefix) :
    wellFormed c (selectForm c p) = true ∧ encode (selectForm c p) = encodeOpSize p ++ [opcodeByte] := by
  unfold selectForm
  split
  next h16 => exact ⟨(operandSize_eq_s16_iff c p).1 h16, rfl⟩
  next h32 => exact ⟨(operandSize_eq_s32_iff c p).1 h32, rfl⟩
  next h64 =>
    obtain ⟨rfl, hq⟩ := (operandSize_eq_s64_iff c p).1 h64
    exact ⟨hq, rfl⟩

/-- R53, R58: what the loop selects is well-formed, and its bytes are the prefixes consumed and the opcode byte. -/
theorem selectInstr_encodes (c : DecodeContext) (p : Prefixes) :
    wellFormed c (selectInstr c p) = true ∧ encode (selectInstr c p) = prefixBytes p ++ [opcodeByte] := by
  cases p with
  | none => exact selectForm_encodes c .absent
  | opSize => exact selectForm_encodes c .present
  | lock | opSizeLock | lockOpSize => exact ⟨rfl, rfl⟩

/-- R48, R53: every well-formed instruction is selected by some prefixes. -/
theorem exists_selectInstr_eq {c : DecodeContext} {i : Instr} (h : wellFormed c i = true) : ∃ p, selectInstr c p = i := by
  cases i with
  | popf p => exact ⟨opSizePrefixes p, by simp [selectInstr_opSizePrefixes, selectForm, (operandSize_eq_s16_iff c p).2 h]⟩
  | popfd p => exact ⟨opSizePrefixes p, by simp [selectInstr_opSizePrefixes, selectForm, (operandSize_eq_s32_iff c p).2 h]⟩
  | popfq => exact ⟨.none, by simp [selectInstr, selectForm, (operandSize_eq_s64_iff c .absent).2 ⟨rfl, h⟩]⟩
  | lockPopf f =>
    cases f with
    | lock => exact ⟨.lock, rfl⟩
    | lockOpSize => exact ⟨.lockOpSize, rfl⟩
    | opSizeLock => exact ⟨.opSizeLock, rfl⟩

/-! The two directions -/

/-- Settles O1: the instruction is selected by some prefixes, its encoding shows these, and the loop reads them to the opcode. -/
theorem decodeOfEncode : Obligations.DecodeOfEncode := by
  intro c i rest h
  obtain ⟨p, rfl⟩ := exists_selectInstr_eq h
  rw [instrLength, (selectInstr_encodes c p).2]
  exact decode_prefixBytes_opcode c p rest

theorem prefixBytes_of_addOpSize {p p' : Prefixes} (h : addOpSize p = some p') : prefixBytes p' = prefixBytes p ++ [opSizeByte] := by
  cases p <;> cases h <;> rfl

theorem prefixBytes_of_addLock {p p' : Prefixes} (h : addLock p = some p') : prefixBytes p' = prefixBytes p ++ [lockByte] := by
  cases p <;> cases h <;> rfl

/-- R58: where the loop answers, it has gone on from `p` through admitted prefixes to the opcode byte. -/
theorem decodeFrom_ok {c : DecodeContext} {p : Prefixes} {bytes : List Byte} {i : Instr} {n : Nat}
    (h : decodeFrom c p bytes = .ok (i, n)) :
    ∃ q rest, prefixBytes p ++ bytes = (prefixBytes q ++ [opcodeByte]) ++ rest ∧ i = selectInstr c q ∧
      n = prefixCount q + 1 := by
  induction bytes generalizing p with
  | nil => cases h
  | cons b rest ih =>
    unfold decodeFrom at h
    split_ifs at h with hop hlock hother hrex hopcode
    · split at h
      · cases h
      · next p' hp' =>
        obtain ⟨q, rest', hbytes, hsel⟩ := ih h
        refine ⟨q, rest', ?_, hsel⟩
        rw [← hbytes, prefixBytes_of_addOpSize hp', hop, List.append_assoc, List.singleton_append]
    · split at h
      · cases h
      · next p' hp' =>
        obtain ⟨q, rest', hbytes, hsel⟩ := ih h
        refine ⟨q, rest', ?_, hsel⟩
        rw [← hbytes, prefixBytes_of_addLock hp', hlock, List.append_assoc, List.singleton_append]
    · cases h
      exact ⟨p, rest, by rw [hopcode, List.append_assoc, List.singleton_append], rfl, rfl⟩

/-- R49: POPFD does not exist in 64-bit mode. -/
theorem wellFormed_popfd_bits64 {c : DecodeContext} (h : c.codeMode = .bits64) (p : OpSizePrefix) :
    wellFormed c (.popfd p) = false := by
  cases p <;> simp [wellFormed, h]

/-- Settles O2: the loop has read the prefixes of what it selects, and the N.E. cells are not well-formed. -/
theorem decodedBytesAreAnEncoding : Obligations.DecodedBytesAreAnEncoding := by
  intro c bytes i n h
  obtain ⟨p, rest, hbytes, rfl, rfl⟩ := decodeFrom_ok h
  obtain ⟨hwf, henc⟩ := selectInstr_encodes c p
  have hlen : prefixCount p + 1 = instrLength (selectInstr c p) := by simp [instrLength, henc]
  refine ⟨hwf, hlen, ?bytes, fun h64 q hq => ?noPopfd, fun h64 hq => ?noPopfq⟩
  case bytes =>
    have hbytes : bytes = encode (selectInstr c p) ++ rest := by rw [henc, ← hbytes]; rfl
    rw [hlen, hbytes, instrLength, List.take_left]
  case noPopfd => simp [hq, wellFormed_popfd_bits64 h64] at hwf
  case noPopfq => simp [hq, wellFormed, h64] at hwf

/-- Settles O3: each of the nine is the encoding of the instruction, which is well-formed in that context. -/
theorem writtenOutWordsDecode : Obligations.WrittenOutWordsDecode := by
  have reads (c : DecodeContext) (i : Instr) (h : wellFormed c i = true) : decode c (encode i) = .ok (i, instrLength i) := by
    simpa using decodeOfEncode c i [] h
  exact ⟨reads ⟨.legacy, .d16⟩ (.popf .absent) rfl, reads ⟨.legacy, .d16⟩ (.popfd .present) rfl,
    reads ⟨.compatibility, .d32⟩ (.popfd .absent) rfl, reads ⟨.compatibility, .d32⟩ (.popf .present) rfl,
    reads ⟨.bits64, .d32⟩ .popfq rfl, reads ⟨.bits64, .d32⟩ (.popf .present) rfl,
    reads ⟨.legacy, .d32⟩ (.lockPopf .lock) rfl, reads ⟨.bits64, .d16⟩ (.lockPopf .lockOpSize) rfl,
    reads ⟨.compatibility, .d16⟩ (.lockPopf .opSizeLock) rfl⟩

end Sys2Proof

/-! PROOF. Completing (spec 40_popf.md R60 to R66, R103). The four statements with a mask of R61 say which mask is defined and
leave the rest to `exec_completes_of_lowMask`; the one of R65 reads the flags off `exec_next_flags`. Then the ways not to
complete: a mode that R27 excludes, a device stack, an rIP at its top, an image that R65 turns into #GP(0). -/

namespace Sys2Proof.Machine

/-! Completing with a mask -/

section Masks

variable {s : State}

/-- R61: AC and ID, in the statements' spelling and in the model's. -/
theorem withAcId_eq (low : Word64) (size : OperandSize) : withAcId low size = low ||| highMask size := by
  cases size with
  | s16 => exact (BitVec.or_zero).symm
  | s32 | s64 => rfl

/-- R14: with PE = 1 the CPL of the rules is the field. -/
theorem effectiveCpl_of_pe (hpe : s.cr0.pe = true) : s.effectiveCpl = s.cpl := by simp [State.effectiveCpl, hpe]

/-- R14: in real-address mode the CPL of the rules is 0. -/
theorem effectiveCpl_of_realAddress (hpe : s.cr0.pe = false) : s.effectiveCpl = 0 := by simp [State.effectiveCpl, hpe]

/-- R61: outside virtual-8086 mode a mask is defined. -/
theorem exists_lowMask_of_not_vm (hvm : s.vm = false) : ∃ low, lowMask s.vm s.cr0.pe s.effectiveCpl s.iopl = some low :=
  Option.ne_none_iff_exists'.1 (by simp [lowMask_eq_none_iff, hvm])

/-- R61: where a mask is defined, the instruction reaches its pop. -/
theorem reachesPop_of_lowMask {low : Word64} (size : OperandSize)
    (hl : lowMask s.vm s.cr0.pe s.effectiveCpl s.iopl = some low) : ReachesPop s size := by
  by_contra hn
  simp only [ReachesPop, not_or, Bool.not_eq_false] at hn
  obtain ⟨hvm, hiopl, -⟩ := hn
  simp [lowMask_eq_none_iff.2 ⟨hvm, hiopl⟩] at hl

end Masks

/-- Settles O8: the mask is that of CPL 0. -/
theorem completesAtLevelZero : Obligations.CompletesAtLevelZero := by
  intro i size s hf hc hz hvm hzero hr hip
  obtain ⟨low, hl⟩ := exists_lowMask_of_not_vm hvm
  have heff : s.effectiveCpl = 0 := by
    obtain hpe | hcpl := hzero
    · exact effectiveCpl_of_realAddress hpe
    · simp [State.effectiveCpl, hcpl]
  obtain rfl := lowMask_cplZero hc hl heff
  rw [withAcId_eq]
  exact exec_completes_of_lowMask hf hc hz hl hr hip

/-- Settles O9: the mask is that of IOPL < CPL. -/
theorem completesAboveIopl : Obligations.CompletesAboveIopl := by
  intro i size s hf hc hz hvm hpe hiopl hr hip
  obtain ⟨low, hl⟩ := exists_lowMask_of_not_vm hvm
  obtain rfl := lowMask_ioplBelow hc hl (by rwa [effectiveCpl_of_pe hpe])
  rw [withAcId_eq]
  exact exec_completes_of_lowMask hf hc hz hl hr hip

/-- Settles O10: the mask is that of 0 < CPL ≤ IOPL. -/
theorem completesWithinIopl : Obligations.CompletesWithinIopl := by
  intro i size s hf hc hz hvm hpe hcpl hiopl hr hip
  obtain ⟨low, hl⟩ := exists_lowMask_of_not_vm hvm
  have heff := effectiveCpl_of_pe hpe
  obtain rfl := lowMask_ioplAtLeast hc hl (by rwa [heff]) (by rwa [heff])
  rw [withAcId_eq]
  exact exec_completes_of_lowMask hf hc hz hl hr hip

/-- Settles O11: at IOPL 3 virtual-8086 mode has a mask, whatever CR4.VME is. -/
theorem completesInVirtual8086AtIopl3 : Obligations.CompletesInVirtual8086AtIopl3 := by
  intro i size s hf hc hz hvm hiopl hr hip
  have hl : lowMask s.vm s.cr0.pe s.effectiveCpl s.iopl = some 0x4FD5 := by simp [lowMask, hvm, hiopl, arithNtMask, ifMask]
  rw [withAcId_eq]
  exact exec_completes_of_lowMask hf hc hz hl hr hip

/-! Completing with the extensions -/

/-- R27: operand size 16 exists in every code mode. -/
theorem sizeConsistent_s16 (s : State) : s.SizeConsistent .s16 := ⟨nofun, nofun⟩

/-- R65: POPF reaches its pop on the path of the extensions. -/
theorem reachesPop_of_onVmePath {s : State} (hpath : OnVmePath s) : ReachesPop s .s16 := by
  obtain ⟨-, hvme, -⟩ := hpath
  exact .inr (.inr ⟨rfl, hvme⟩)

/-- R65: the flags of an instruction that completes on the path of the extensions. -/
theorem exec_next_flags_of_onVmePath {i : Instr} {s t : State} (h : exec i s = .next t) (hpath : OnVmePath s) :
    ∀ k < 64, t.rflags.getLsbD k =
      if k = 19 then imageBit s 9 else if (0x4DD5 : Word64).getLsbD k = true then imageBit s k
      else if k = 16 then false else s.rflags.getLsbD k := by
  obtain ⟨-, -, ⟨low, hl, -⟩ | ⟨-, -, -, hflags⟩⟩ := exec_next_flags h
  · exact absurd hpath (not_onVmePath_of_lowMask hl)
  · exact hflags

/-- Settles O12: nothing stops the core, and TF takes a bit of the image that note 3 wants clear. -/
theorem popfCompletesWithVme : Obligations.PopfCompletesWithVme := by
  intro p s hc hpath hr hip hnotes
  have hrp := reachesPop_of_onVmePath hpath
  obtain ⟨t, ht, hadv⟩ := execSized_completes (size := .s16) _ hc (sizeConsistent_s16 s) hrp hr (fun h => hnotes h.2) hip
  have hexec : exec (.popf p) s = .next t := ht
  have hflags := exec_next_flags_of_onVmePath hexec hpath
  have htf : flag t.rflags 8 = imageBit s 8 := hflags 8 (by decide)
  obtain ⟨-, himage⟩ := not_or.1 hnotes
  exact ⟨t, hexec, hflags, htf.trans (by simpa using himage), hadv, exec_kept hexec⟩

/-! The converse -/

/-- Settles O13: the core answers a next state under a mask, which rules the extensions out, or on their path without notes 2
and 3. -/
theorem completesOnlyThere : Obligations.CompletesOnlyThere := by
  intro i s t h
  obtain ⟨size, hf, hnext⟩ := exec_next h
  obtain ⟨hc, hz, hr, hip, -⟩ := execSized_next hnext
  refine ⟨size, hf, hc, hz, ?_⟩
  obtain ⟨size', hf', ⟨low, hl, -⟩ | ⟨hpath, rfl, hnotes, -⟩⟩ := exec_next_flags h
  · exact ⟨reachesPop_of_lowMask size hl, hr, hip, fun hv => not_onVmePath_of_lowMask hl hv.1⟩
  · obtain rfl : size = .s16 := by simpa [hf] using hf'
    exact ⟨reachesPop_of_onVmePath hpath, hr, hip, fun hv => hnotes hv.2⟩

/-! Not completing -/

/-- R27, D10: the core in a state that no row of the table covers. -/
theorem execSized_inconsistent {s : State} {size : OperandSize} (n : Nat) (h : ¬ (s.ModeConsistent ∧ s.SizeConsistent size)) :
    execSized size n s = .refused .inconsistentMode := if_neg h

/-- Settles O32: each line denies one clause of the core's test. -/
theorem inconsistentStateIsRefused : Obligations.InconsistentStateIsRefused := by
  intro i size s hf hbroken
  rw [exec_of_formSize hf]
  refine execSized_inconsistent _ fun ⟨⟨hreal, hcpl, hlegacy, hrealLegacy⟩, h64, h32⟩ => ?_
  obtain ⟨hpe, hvm⟩ | ⟨hvm, h⟩ | ⟨hvm, h⟩ | ⟨hpe, h⟩ | ⟨hs, h⟩ | ⟨hs, h⟩ := hbroken
  · simp [hreal hpe] at hvm
  · exact h (hcpl hvm)
  · exact h (hlegacy hvm)
  · exact h (hrealLegacy hpe)
  · exact h (h64 hs)
  · exact h32 hs h

/-- Settles O34: with the faults of the read shut out, a device region is what stops the pop. -/
theorem deviceStackIsRefused : Obligations.DeviceStackIsRefused := by
  intro i size s hf hc hz hrp hr hs hm ha ho
  rw [exec_of_formSize hf]
  exact execSized_of_popStops _ hc hz hrp (.device hr hs hm ha ho)

/-- R23: completing is refused where rIP would reach its top. -/
theorem complete_of_wraps {s : State} {n : Nat} (flags : Word64) (p : Popped) (h : 2 ^ s.ipWidth ≤ s.ip + n) :
    complete s flags p n = .refused .ipWrap := if_neg (Nat.not_lt.2 h)

/-- Settles O35: all that is left to the core is to complete. -/
theorem instructionPointerWrapIsRefused : Obligations.InstructionPointerWrapIsRefused := by
  intro i size s hf hc hz hrp hr hnf hwrap
  obtain ⟨flags, p, -, he⟩ := execSized_of_readable (instrLength i) hc hz hrp hr hnf
  rw [exec_of_formSize hf, he, complete_of_wraps flags p hwrap]

end Sys2Proof.Machine

namespace Sys2Proof

/-- Settles O24: a readable stack is popped, and the image then faults. -/
theorem vmeImageFaults : Obligations.VmeImageFaults := by
  intro p s hc hpath hr hnotes
  have hfault : Machine.exec (.popf p) s = .fault (.generalProtection 0) :=
    Machine.execSized_of_notes23 _ hc hpath hr hnotes
  exact ⟨hfault, by rw [hfault]; rfl⟩

end Sys2Proof

/-! PROOF. The flags of a completed instruction, by its levels (spec 40_popf.md R60 to R65). Every mask of R61 and the update of
the extensions alike take the arithmetic flags, IF where CPL ≤ IOPL, and IOPL at CPL 0; the statements about single
instructions and about runs are read off these three lemmas and `exec_next_unwritable`. -/

namespace Sys2Proof.Machine

section ExecNext

variable {i : Instr} {s t : State}

/-- R27: an instruction completes in a consistent state only. -/
theorem exec_next_modeConsistent (h : exec i s = .next t) : s.ModeConsistent := by
  obtain ⟨size, -, h⟩ := exec_next h
  obtain ⟨hc, -⟩ := execSized_next h
  exact hc

/-- R14, R27: in virtual-8086 mode CPL is 3. -/
theorem effectiveCpl_of_vm (hc : s.ModeConsistent) (hvm : s.vm = true) : s.effectiveCpl = 3 := by
  obtain ⟨hreal, hcpl, -, -⟩ := hc
  refine s.effectiveCpl_eq_three_iff.2 ⟨?_, hcpl hvm⟩
  by_contra hpe
  simp [hreal (by simpa using hpe)] at hvm

/-- R61, R65: CF, PF, AF, ZF, SF, TF, DF, OF and NT are always taken. -/
theorem exec_next_arith (h : exec i s = .next t) {k : Nat} (hk : k ∈ [0, 2, 4, 6, 7, 8, 10, 11, 14]) :
    flag t.rflags k = imageBit s k := by
  have harith : ∀ k ∈ [0, 2, 4, 6, 7, 8, 10, 11, 14], k < 64 ∧ k ≠ 19 ∧ (0x4DD5 : Word64).getLsbD k = true := by decide
  obtain ⟨hlt, h19, hbit⟩ := harith k hk
  obtain ⟨size, -, ⟨low, -, hlow, hflags⟩ | ⟨-, -, -, hflags⟩⟩ := exec_next_flags h
  · refine FlagsTaken.taken hflags ?_
    have hin : low.getLsbD k = true := by
      revert k
      obtain rfl | rfl | rfl := hlow <;> decide
    rw [BitVec.getLsbD_or, hin, Bool.true_or]
  · exact (hflags k hlt).trans (by rw [if_neg h19, if_pos hbit])

/-- R61, R65, R70: IF is taken exactly where CPL ≤ IOPL. -/
theorem exec_next_if (h : exec i s = .next t) :
    flag t.rflags 9 = if s.effectiveCpl.toNat ≤ s.iopl.toNat then imageBit s 9 else flag s.rflags 9 := by
  have hc := exec_next_modeConsistent h
  obtain ⟨size, -, ⟨low, hl, -, hflags⟩ | ⟨hpath, -, -, hflags⟩⟩ := exec_next_flags h
  · obtain ⟨hzero, rfl⟩ | ⟨-, hbelow, rfl⟩ | ⟨-, hwithin, rfl⟩ := lowMask_levels hc hl
    · rw [if_pos (by simp [hzero])]
      exact FlagsTaken.taken hflags (by cases size <;> decide)
    · rw [if_neg (by omega)]
      exact FlagsTaken.kept hflags (by decide) (by cases size <;> decide) (by decide)
    · rw [if_pos hwithin]
      exact FlagsTaken.taken hflags (by cases size <;> decide)
  · have hbelow := s.iopl_ne_three_iff.1 hpath.2.2
    rw [if_neg (by simpa [effectiveCpl_of_vm hc hpath.1] using hbelow)]
    exact hflags 9 (by decide)

/-- R61, R65, R70: IOPL is taken at CPL 0 only. -/
theorem exec_next_iopl (h : exec i s = .next t) {k : Nat} (hk : k ∈ [12, 13]) :
    flag t.rflags k = if s.effectiveCpl = 0 then imageBit s k else flag s.rflags k := by
  have hc := exec_next_modeConsistent h
  have hne16 : k ≠ 16 := by rintro rfl; simp at hk
  have hlt : k < 64 := by simp at hk; omega
  obtain ⟨size, -, ⟨low, hl, -, hflags⟩ | ⟨hpath, -, -, hflags⟩⟩ := exec_next_flags h
  · obtain ⟨hzero, rfl⟩ | ⟨hne, -, hlow⟩ | ⟨hne, -, hlow⟩ := lowMask_levels hc hl
    · rw [if_pos hzero]
      refine FlagsTaken.taken hflags ?_
      revert k
      cases size <;> decide
    · rw [if_neg hne]
      exact FlagsTaken.kept hflags hlt (unprivileged_mask_iopl (.inl hlow) hk) hne16
    · rw [if_neg hne]
      exact FlagsTaken.kept hflags hlt (unprivileged_mask_iopl (.inr hlow) hk) hne16
  · rw [if_neg (by simp [effectiveCpl_of_vm hc hpath.1])]
    have hout : ∀ k ∈ [12, 13], k ≠ 19 ∧ ¬ (0x4DD5 : Word64).getLsbD k = true := by decide
    obtain ⟨h19, hbit⟩ := hout k hk
    exact (hflags k hlt).trans (by rw [if_neg h19, if_neg hbit, if_neg hne16, flag])

/-- R61: at operand size 16 the bits above FLAGS are kept, but for RF and, with the extensions, VIF. -/
theorem exec_next_above_flags (h : exec i s = .next t) (hf : formSize i = some .s16) (hpath : ¬ OnVmePath s) {k : Nat}
    (h17 : 17 ≤ k) (hk : k < 64) : flag t.rflags k = flag s.rflags k := by
  obtain ⟨size, hf', ⟨low, -, hlow, hflags⟩ | ⟨hvme, -⟩⟩ := exec_next_flags h
  · obtain rfl : size = .s16 := by simpa [hf] using hf'.symm
    have hout : (low ||| highMask .s16).getLsbD k = false := by
      by_contra hin
      have hlt : k < 16 := writeMask_bit_lt hlow (Bool.eq_true_of_not_eq_false hin)
      omega
    exact FlagsTaken.kept hflags hk hout (by omega)
  · exact absurd hvme hpath

end ExecNext

/-- Settles O14: the flags by their levels, and the bits that no mask has. -/
theorem popfWritesFlags : Obligations.PopfWritesFlags := by
  intro p s t h hpath
  have hreserved : ∀ k ∈ [1, 3, 5, 15], k < 64 ∧ k ≠ 16 ∧ k ≠ 19 ∧ (writableMask .s64).getLsbD k = false := by decide
  refine ⟨fun k hk => exec_next_arith h hk, exec_next_if h, fun k hk => exec_next_iopl h hk, exec_next_rf h,
    fun k hk => ?reserved, fun k h17 hk => exec_next_above_flags h rfl hpath h17 hk⟩
  case reserved =>
    obtain ⟨hlt, h16, h19, hw⟩ := hreserved k hk
    exact (exec_next_unwritable h hlt (absurd · h19) hw).trans (if_neg h16)

/-- R61: at operand sizes 32 and 64 an instruction completes under a mask, so AC and ID are taken. -/
theorem exec_next_wide {i : Instr} {s t : State} {size : OperandSize} (h : exec i s = .next t) (hf : formSize i = some size)
    (hsize : size ≠ .s16) : ¬ OnVmePath s ∧ ∀ k ∈ [18, 21], flag t.rflags k = imageBit s k := by
  obtain ⟨size', hf', ⟨low, hl, -, hflags⟩ | ⟨-, h16, -⟩⟩ := exec_next_flags h
  · obtain rfl : size' = size := by simpa [hf] using hf'.symm
    exact ⟨not_onVmePath_of_lowMask hl, fun k hk => FlagsTaken.taken hflags (mask_acId hsize low hk)⟩
  · obtain rfl : size' = size := by simpa [hf] using hf'.symm
    exact absurd h16 hsize

/-- Settles O15: the flags by their levels, AC and ID, and the bits that no mask has. -/
theorem popfdAndPopfqWriteFlags : Obligations.PopfdAndPopfqWriteFlags := by
  intro i s t ⟨size, hf, hsize⟩ h
  obtain ⟨hpath, hacId⟩ := exec_next_wide h hf hsize
  have hnever : ∀ k ∈ [1, 3, 5, 15, 17, 19, 20], k < 64 ∧ k ≠ 16 ∧ (writableMask .s64).getLsbD k = false := by decide
  have habove : ∀ k < 64, 22 ≤ k → (writableMask .s64).getLsbD k = false := by decide
  have hkept {k : Nat} (hlt : k < 64) (h16 : k ≠ 16) (hw : (writableMask .s64).getLsbD k = false) :
      flag t.rflags k = flag s.rflags k :=
    (exec_next_unwritable h hlt (fun _ => hpath) hw).trans (if_neg h16)
  refine ⟨fun k hk => ?taken, exec_next_if h, fun k hk => exec_next_iopl h hk, exec_next_rf h, fun k hk => ?listed,
    fun k h22 hk => hkept hk (by omega) (habove k hk h22)⟩
  case taken =>
    have hsplit : [0, 2, 4, 6, 7, 8, 10, 11, 14, 18, 21] = [0, 2, 4, 6, 7, 8, 10, 11, 14] ++ [18, 21] := rfl
    rw [hsplit, List.mem_append] at hk
    obtain hk | hk := hk
    · exact exec_next_arith h hk
    · exact hacId k hk
  case listed =>
    obtain ⟨hlt, h16, hw⟩ := hnever k hk
    exact hkept hlt h16 hw

end Sys2Proof.Machine

/-! PROOF. What every step and every run keeps (spec 10_state.md R19, 40_popf.md R68 to R70). A step that answers a next state is
an instruction that does, so its relations hold of a step; those that compose hold of a run by `run_induction`. -/

namespace Sys2Proof.Machine

/-! A step -/

/-- R79: the mark of the step refused next is TF of the new flags. -/
theorem exec_next_trapFlagLeft {i : Instr} {s t : State} (h : exec i s = .next t) : t.trapFlagLeft = flag t.rflags 8 := by
  obtain ⟨size, -, h⟩ := exec_next h
  obtain ⟨-, -, -, -, p, flags, -, rfl, -⟩ := execSized_next h
  rfl

/-- R27: the mode is a reading of VM and of what every instruction keeps. -/
theorem Kept.modeConsistent {s t : State} (h : Kept s t) (hvm : t.vm = s.vm) : t.ModeConsistent ↔ s.ModeConsistent := by
  simp only [State.ModeConsistent, hvm, h.cr0, h.cpl, h.codeMode]

/-- R68: VM is kept. -/
theorem exec_next_vm {i : Instr} {s t : State} (h : exec i s = .next t) : t.vm = s.vm := by
  obtain ⟨-, hvm, -⟩ := virtualFlagsAreKept i s t h
  exact hvm

/-- Settles O43: memory, program and mode are in the frame, and the mark is TF. -/
theorem stepKeepsInvariant : Obligations.StepKeepsInvariant := by
  intro s t hinv h
  obtain ⟨-, i, -, hexec⟩ := step_next h
  have hkept := exec_kept hexec
  exact
    { mem := by rw [hkept.mem]; exact hinv.mem
      program := by rw [hkept.program]; exact hinv.program
      mode := (hkept.modeConsistent (exec_next_vm hexec)).2 hinv.mode
      mark := fun hmark => by rwa [← exec_next_trapFlagLeft hexec] }

/-- Settles O44: nothing is listed in memory or program, and the mode is real-address mode. -/
theorem resetHasInvariant : Obligations.ResetHasInvariant where
  mem := rfl
  program := rfl
  mode := by decide
  mark := nofun

/-! A run -/

theorem Kept.refl (s : State) : Kept s s where
  gprs := rfl
  cpl := rfl
  cr0 := rfl
  cr4 := rfl
  codeMode := rfl
  defaultOperandSize := rfl
  ss := rfl
  mem := rfl
  bytes _ := rfl
  program := rfl
  env := rfl

theorem Kept.trans {s u t : State} (h : Kept s u) (h' : Kept u t) : Kept s t where
  gprs := h'.gprs.trans h.gprs
  cpl := h'.cpl.trans h.cpl
  cr0 := h'.cr0.trans h.cr0
  cr4 := h'.cr4.trans h.cr4
  codeMode := h'.codeMode.trans h.codeMode
  defaultOperandSize := h'.defaultOperandSize.trans h.defaultOperandSize
  ss := h'.ss.trans h.ss
  mem := h'.mem.trans h.mem
  bytes a := (h'.bytes a).trans (h.bytes a)
  program := h'.program.trans h.program
  env := h'.env.trans h.env

/-- A relation that is reflexive and transitive, and that every instruction keeps, holds along every run. -/
theorem run_relation {P : State → State → Prop} (refl : ∀ s, P s s) (trans : ∀ {s u t}, P s u → P u t → P s t)
    (exec_next : ∀ {i s t}, exec i s = .next t → P s t) {n : Nat} {s t : State} (h : Host.Core.run core n s = .next t) :
    P s t :=
  run_induction refl (fun s u t hstep hrest => by
    obtain ⟨-, i, -, hexec⟩ := step_next hstep
    exact trans (exec_next hexec) hrest) h

/-- What no instruction changes: the frame, VIP, VM and the reserved bits. -/
structure Protected (s t : State) : Prop where
  kept : Kept s t
  vip : t.vip = s.vip
  vm : t.vm = s.vm
  reserved : t.rflags &&& reservedMask = s.rflags &&& reservedMask

theorem Protected.refl (s : State) : Protected s s := ⟨.refl s, rfl, rfl, rfl⟩

theorem Protected.trans {s u t : State} (h : Protected s u) (h' : Protected u t) : Protected s t :=
  ⟨h.kept.trans h'.kept, h'.vip.trans h.vip, h'.vm.trans h.vm, h'.reserved.trans h.reserved⟩

theorem exec_next_protected {i : Instr} {s t : State} (h : exec i s = .next t) : Protected s t where
  kept := exec_kept h
  vip := (virtualFlagsAreKept i s t h).1
  vm := exec_next_vm h
  reserved := reservedBitsAreKeptAndIgnored.1 i s t h

/-- Settles O45: what no instruction changes no run changes, and the mode is read off it. -/
theorem runKeepsModeMemoryAndProtectedFlags : Obligations.RunKeepsModeMemoryAndProtectedFlags := by
  intro n s t h
  obtain ⟨hkept, hvip, hvm, hreserved⟩ := run_relation Protected.refl Protected.trans exec_next_protected h
  exact ⟨hkept, hkept.operatingMode hvm, hvip, hvm, hreserved⟩

/-! Privilege along a run -/

/-- R70: the levels of the rules are kept, and at CPL > 0 so are IOPL and, where it is below CPL, IF. -/
structure PrivilegeKept (s t : State) : Prop where
  effectiveCpl : t.effectiveCpl = s.effectiveCpl
  iopl : s.effectiveCpl ≠ 0 → t.iopl = s.iopl
  interrupt : s.effectiveCpl ≠ 0 → s.iopl.toNat < s.effectiveCpl.toNat → flag t.rflags 9 = flag s.rflags 9

theorem PrivilegeKept.refl (s : State) : PrivilegeKept s s := ⟨rfl, fun _ => rfl, fun _ _ => rfl⟩

theorem PrivilegeKept.trans {s u t : State} (h : PrivilegeKept s u) (h' : PrivilegeKept u t) : PrivilegeKept s t where
  effectiveCpl := h'.effectiveCpl.trans h.effectiveCpl
  iopl hcpl := (h'.iopl (h.effectiveCpl ▸ hcpl)).trans (h.iopl hcpl)
  interrupt hcpl hbelow :=
    (h'.interrupt (h.effectiveCpl ▸ hcpl) (by rwa [h.effectiveCpl, h.iopl hcpl])).trans (h.interrupt hcpl hbelow)

theorem exec_next_privilegeKept {i : Instr} {s t : State} (h : exec i s = .next t) : PrivilegeKept s t where
  effectiveCpl := by
    obtain ⟨-, hcpl, hcr0, -⟩ := exec_kept h
    simp only [State.effectiveCpl, hcpl, hcr0]
  iopl hcpl := State.iopl_eq_of_bits fun _ hk => (exec_next_iopl h hk).trans (if_neg hcpl)
  interrupt _ hbelow := (exec_next_if h).trans (if_neg (Nat.not_le.2 hbelow))

/-- Settles O46: at CPL > 0 no instruction takes IOPL, nor IF below CPL, and so no run does. -/
theorem runCannotRaisePrivilege : Obligations.RunCannotRaisePrivilege := by
  intro n s t h hpe hcpl
  obtain ⟨-, hiopl, hif⟩ := run_relation PrivilegeKept.refl PrivilegeKept.trans exec_next_privilegeKept h
  rw [effectiveCpl_of_pe hpe] at hiopl hif
  exact ⟨hiopl hcpl, hif hcpl⟩

/-! Fetching -/

/-- R79: a step after an instruction that left TF = 1. -/
theorem step_of_trapFlagLeft {s : State} (h : s.trapFlagLeft = true) : step s = .refused .singleStepNotModelled := if_pos h

/-- R8: a step where an instruction is fetched. -/
theorem step_of_fetch_ok {s : State} {i : Instr} (ht : s.trapFlagLeft = false) (h : fetch s = .ok i) : step s = exec i s := by
  simp [step, ht, h]

theorem step_of_fetch_error {s : State} {r : Refusal} (ht : s.trapFlagLeft = false) (h : fetch s = .error r) :
    step s = .refused r := by
  simp [step, ht, h]

/-- Settles O6: the step's test is of the mark, which is TF. -/
theorem stepAfterTrapFlagIsRefused : Obligations.StepAfterTrapFlagIsRefused := by
  intro s t h
  obtain ⟨-, j, -, hexec⟩ := step_next h
  have hmark := exec_next_trapFlagLeft hexec
  exact ⟨fun htf => step_of_trapFlagLeft (hmark.trans htf), fun htf i hi => step_of_fetch_ok (hmark.trans htf) hi⟩

/-- R45: program bytes that stand below the top are fetched, and those after them follow. -/
theorem fetchFrom_eq_append {p : Program} {top a fuel : Nat} {bytes : List Byte} (hfuel : bytes.length ≤ fuel)
    (htop : a + bytes.length ≤ top) (h : ∀ k < bytes.length, findCell p (a + k) = bytes[k]?) :
    ∃ rest, fetchFrom p top a fuel = bytes ++ rest := by
  induction bytes generalizing a fuel with
  | nil => exact ⟨_, rfl⟩
  | cons b bytes ih =>
    rw [List.length_cons] at hfuel htop h
    obtain ⟨fuel, rfl⟩ : ∃ f, fuel = f + 1 := ⟨fuel - 1, by omega⟩
    have hb : findCell p a = some b := h 0 (by omega)
    obtain ⟨rest, hrest⟩ := ih (a := a + 1) (fuel := fuel) (by omega) (by omega) fun k hk => by
      rw [Nat.add_right_comm, Nat.add_assoc]
      exact h (k + 1) (by omega)
    exact ⟨rest, by simp [fetchFrom, hb, hrest, show a < top by omega]⟩

/-- R53: no encoding is longer than what a fetch reads. -/
theorem instrLength_le (i : Instr) : instrLength i ≤ maxLength := by
  have hstatement : Laws.Encoding.Statement i := by
    cases i with
    | popf p => exact Laws.Encoding.popf p
    | popfd p => exact Laws.Encoding.popfd p
    | popfq => exact Laws.Encoding.popfq
    | lockPopf f => exact Laws.Encoding.lockPopf f
  obtain ⟨-, -, -, hle⟩ := hstatement
  exact hle

/-- Settles O5: the encoding is fetched, with what follows it, and decodes to the instruction. -/
theorem stepRunsDecodedInstruction : Obligations.StepRunsDecodedInstruction := by
  intro s i ht hwf htop hbytes
  obtain ⟨rest, hrest⟩ := fetchFrom_eq_append (instrLength_le i) htop hbytes
  refine step_of_fetch_ok ht ?_
  rw [fetch, fetchBytes, hrest, decodeOfEncode _ i rest hwf]

/-- R45: nothing is fetched from where the program holds no byte. -/
theorem fetchFrom_of_none {p : Program} {top a : Nat} (fuel : Nat) (h : findCell p a = none) : fetchFrom p top a fuel = [] := by
  cases fuel with
  | zero => rfl
  | succ k => simp [fetchFrom, h]

/-- Settles O7: no byte is fetched, and rIP is below its top. -/
theorem stepOutsideProgramIsRefused : Obligations.StepOutsideProgramIsRefused := by
  intro s ht hnone
  have hbytes : fetchBytes s = [] := fetchFrom_of_none maxLength hnone
  have hip : s.ip < 2 ^ s.ipWidth := Nat.mod_lt _ (Nat.two_pow_pos _)
  refine step_of_fetch_error ht ?_
  simp [fetch, hbytes, decode, decodeFrom, fetchRefusal, hip]

end Sys2Proof.Machine

/-! PROOF. One row of Table 4-15 for each consistent state and operand size (spec 40_popf.md R72, 10_state.md R27). A state has one
row head (`State.tableMode`) and, among the level cells that rows of this head have, one that applies (`State.tableLevels`); that
the head, the levels and the operand size name one printed row is a property of the table alone. -/

namespace Sys2Proof.Machine

/-- R19: the row head of a state. -/
def State.tableMode (s : State) : TableMode :=
  if s.cr0.pe = false then .real
  else if s.vm = false then .protectedCompat64
  else if s.cr4.vme = false then .virtual8086
  else .vme

/-- R72: the level cells that rows with a head have. -/
def TableMode.levels (m : TableMode) : List TableLevels :=
  match m with
  | .real               => [.cplZero]
  | .protectedCompat64  => [.cplZero, .ioplBelow, .ioplAtLeast]
  | .virtual8086 | .vme => [.ioplBelow3, .iopl3]

/-- R13, R14: the level cells of a state, among those of its row head. -/
def State.tableLevels (s : State) : TableLevels :=
  if s.vm = true then if s.iopl.toNat < 3 then .ioplBelow3 else .iopl3
  else if s.effectiveCpl = 0 then .cplZero
  else if s.iopl.toNat < s.effectiveCpl.toNat then .ioplBelow
  else .ioplAtLeast

section Row

variable {s : State}

/-- R19: the head of a row applies to the states that have it. -/
theorem tableModeApplies_iff (hc : s.ModeConsistent) (m : TableMode) : tableModeApplies m s = true ↔ m = s.tableMode := by
  unfold State.tableMode
  split_ifs with hpe hvm hvme
  · have hvm : s.vm = false := hc.1 hpe
    cases m <;> simp [tableModeApplies, hpe]
  · cases m <;> simp [tableModeApplies, hpe, hvm]
  · cases m <;> simp [tableModeApplies, hpe, hvm, hvme]
  · cases m <;> simp [tableModeApplies, hpe, hvm, hvme]

/-- R72: a state's row head has level cells by VM, and but one in real-address mode, where CPL counts as 0. -/
theorem levels_tableMode (hc : s.ModeConsistent) :
    (s.vm = true ∧ s.tableMode.levels = [.ioplBelow3, .iopl3]) ∨
    (s.vm = false ∧ s.tableMode.levels = [.cplZero, .ioplBelow, .ioplAtLeast]) ∨
    (s.vm = false ∧ s.effectiveCpl = 0 ∧ s.tableMode.levels = [.cplZero]) := by
  unfold State.tableMode
  split_ifs with hpe hvm hvme
  · exact .inr (.inr ⟨hc.1 hpe, effectiveCpl_of_realAddress hpe, rfl⟩)
  · exact .inr (.inl ⟨hvm, rfl⟩)
  · exact .inl ⟨by simpa using hvm, rfl⟩
  · exact .inl ⟨by simpa using hvm, rfl⟩

/-- R72: the level cells of a state are among those of its row head. -/
theorem tableLevels_mem (hc : s.ModeConsistent) : s.tableLevels ∈ s.tableMode.levels := by
  unfold State.tableLevels
  obtain ⟨hvm, hl⟩ | ⟨hvm, hl⟩ | ⟨hvm, hzero, hl⟩ := levels_tableMode hc
  · rw [hl, if_pos hvm]
    split_ifs <;> decide
  · rw [hl, if_neg (by simp [hvm])]
    split_ifs <;> decide
  · rw [hl, if_neg (by simp [hvm]), if_pos hzero]
    decide

/-- R13, R14: of the level cells that rows with the state's head have, those of the state apply. -/
theorem tableLevelsApply_iff (hc : s.ModeConsistent) {l : TableLevels} (h : l ∈ s.tableMode.levels) :
    tableLevelsApply l s = true ↔ l = s.tableLevels := by
  have hiopl := s.iopl.isLt
  unfold State.tableLevels
  obtain ⟨hvm, hl⟩ | ⟨hvm, hl⟩ | ⟨hvm, hzero, hl⟩ := levels_tableMode hc
  · have heff := effectiveCpl_of_vm hc hvm
    rw [hl, List.mem_pair] at h
    rw [if_pos hvm]
    obtain rfl | rfl := h <;> split_ifs <;> simp [tableLevelsApply, heff] <;> omega
  · have hzero : s.effectiveCpl = 0 ↔ s.effectiveCpl.toNat = 0 := BitVec.toNat_inj.symm
    simp only [hl, List.mem_cons, List.not_mem_nil, or_false] at h
    rw [if_neg (by simp [hvm])]
    obtain rfl | rfl | rfl := h <;> simp only [tableLevelsApply, decide_eq_true_eq, ne_eq, hzero] <;> split_ifs <;>
      simp <;> omega
  · rw [hl, List.mem_singleton] at h
    simp [h, tableLevelsApply, hvm, hzero]

end Row

/-- R72: the printed rows have the level cells of their heads. -/
theorem table415_levels : ∀ r ∈ table415, r.levels ∈ r.mode.levels := by decide

/-- R72: a head, one of its level cells and an operand size name one printed row. -/
theorem table415_unique (m : TableMode) (wide : Bool) :
    ∀ l ∈ m.levels, ∃ r, table415.filter (fun r => decide (r.mode = m ∧ r.levels = l ∧ r.wide = wide)) = [r] := by
  cases m <;> cases wide <;> simp [TableMode.levels, table415]

/-- Settles O17: the rows that apply are those with the state's head, levels and operand size, of which there is one. -/
theorem table415CoversEachStateOnce : Obligations.Table415CoversEachStateOnce := by
  intro s size hc hz
  obtain ⟨r, hr⟩ := table415_unique s.tableMode (decide (size ≠ .s16)) s.tableLevels (tableLevels_mem hc)
  refine ⟨r, hr ▸ List.filter_congr fun r' hr' => ?_⟩
  rw [Bool.eq_iff_iff, decide_eq_true_iff, tableRowApplies_iff, tableModeApplies_iff hc]
  refine and_congr_right fun hmode => and_congr_left' ?_
  exact tableLevelsApply_iff hc (hmode ▸ table415_levels r' hr')

end Sys2Proof.Machine

/-! PROOF. The image of a pop, the frame of a completed instruction and the memory primitive (spec 20_memory.md R30, R31,
40_popf.md R73, R74, 00_scope.md R7). -/

namespace Sys2Proof.Machine

/-! The image -/

/-- R31: the value that a readable stack gives, whole: `PoppedIs` speaks of the bits that were read alone. -/
theorem pop_eq_of_readable {s : State} {n : Nat} (h : StackReadable s n) :
    pop n s = .ok
      { image := BitVec.ofNat 64 (littleEndian ((List.range n).map (stackByte s)))
        rsp := s.rspWith (s.stackPointer + n)
        draws := s.drawsAfterPop } := by
  obtain ⟨hr, hs, hm, ha, ho⟩ := h
  rw [pop, if_neg (Nat.not_lt.2 hr), stackSegCheck_eq, if_pos hs]
  simp only [readStack_ok hm ha ho]

/-- R31: `Pop` answers for a readable stack only. -/
theorem readable_of_pop_ok {s : State} {n : Nat} {p : Popped} (h : pop n s = .ok p) : StackReadable s n := by
  obtain ⟨-, -, hr, -⟩ | ⟨e, he, -⟩ := pop_cases s n
  · exact hr
  · rw [he] at h
    cases h

/-- R30: past its bytes a little-endian value has no bit set. -/
theorem littleEndian_testBit_above {bytes : List Byte} {k : Nat} (h : 8 * bytes.length ≤ k) :
    (littleEndian bytes).testBit k = false := by
  rw [littleEndian_testBit, List.getD_eq_default _ _ (by omega)]
  exact BitVec.getLsbD_zero

/-- Settles O36: the bits below 8n are the stack's, the bits above are past the bytes read, and the RSP is read back at its
width. -/
theorem popIsLittleEndian : Obligations.PopIsLittleEndian := by
  intro s n p _ h
  have heq := pop_eq_of_readable (readable_of_pop_ok h)
  rw [h] at heq
  obtain rfl := Except.ok.inj heq
  refine ⟨fun k hk => ?image, rspWith_stackPointer s _⟩
  by_cases hlt : k < 8 * n
  · rw [(poppedIs_of_bytes s n).bit k hlt hk, decide_eq_true hlt, Bool.true_and]
  · rw [BitVec.getLsbD_ofNat, littleEndian_testBit_above (by simpa using hlt), Bool.and_false, decide_eq_false hlt,
      Bool.false_and]

/-! The frame -/

/-- Settles O37: completing moves the stack pointer and rIP and writes nothing else but the flags. -/
theorem frameOfEveryInstruction : Obligations.FrameOfEveryInstruction := by
  intro i size s t hf h
  rw [exec_of_formSize hf] at h
  obtain ⟨-, -, -, hip, p, flags, his, rfl, -⟩ := execSized_next h
  exact ⟨kept_afterPop s flags p _, advanced_afterPop flags his hip⟩

/-- Settles O47: rIP moves within its width, which the code segment fixes. -/
theorem ripAboveItsWidthIsKept : Obligations.RipAboveItsWidthIsKept := by
  intro i s t h
  obtain ⟨size, -, h⟩ := exec_next h
  obtain ⟨-, -, -, hip, p, flags, -, rfl, -⟩ := execSized_next h
  exact ⟨s.afterPop_ipWidth flags p _, (afterPop_ip flags p hip).2⟩

/-! The memory primitive -/

section WriteLittleEndian

variable {m : Memory} {a n v k : Nat}

/-- R7: a byte outside the run is not written. -/
theorem Memory.read_writeLittleEndian_outside (h : k < a ∨ a + n ≤ k) :
    Memory.read (Memory.writeLittleEndian m a n v) k = Memory.read m k := by
  induction n generalizing m a v with
  | zero => rfl
  | succ n ih => rw [Memory.writeLittleEndian, ih (by omega), Memory.read_write, if_neg (by omega)]

/-- R7: byte `k` of the run is byte `k` of the value. -/
theorem Memory.read_writeLittleEndian_inside (h : k < n) :
    Memory.read (Memory.writeLittleEndian m a n v) (a + k) = BitVec.ofNat 8 (v / 2 ^ (8 * k)) := by
  induction n generalizing m a v k with
  | zero => omega
  | succ n ih =>
    rw [Memory.writeLittleEndian]
    cases k with
    | zero =>
      rw [Memory.read_writeLittleEndian_outside (by omega), Memory.read_write]
      simp
    | succ k =>
      have hpow : 2 ^ (8 * (k + 1)) = 256 * 2 ^ (8 * k) := by ring
      rw [Nat.add_comm k 1, ← Nat.add_assoc, ih (by omega), Nat.div_div_eq_div_mul, Nat.add_comm 1 k, hpow]

end WriteLittleEndian

/-- Settles O39: the bytes of the run, and the others. -/
theorem memWriteThenRead : Obligations.MemWriteThenRead := by
  intro m a n v k
  exact ⟨Memory.read_writeLittleEndian_inside, Memory.read_writeLittleEndian_outside⟩

end Sys2Proof.Machine

/-! PROOF. The faults by address and by mode (spec 60_exceptions.md R93 to R97). Canonical form (20_memory.md R34) is restated bit by
bit; a mode's list follows from `exec_fault` and from what each stop of the pop says of the mode. -/

namespace Sys2Proof.Machine

/-! Canonical addresses -/

/-- A number of `w + 1` bits is 0 or all ones exactly when its bits are all equal. -/
theorem eq_zero_or_ones_iff {w q : Nat} (hq : q < 2 ^ (w + 1)) :
    (q = 0 ∨ q = 2 ^ (w + 1) - 1) ↔ ∀ j < w + 1, q.testBit j = q.testBit w := by
  constructor
  · rintro (rfl | rfl) j hj
    · rw [Nat.zero_testBit, Nat.zero_testBit]
    · simp [Nat.testBit_two_pow_sub_one, hj]
  · intro hall
    have hbits : ∀ j, q.testBit j = (decide (j < w + 1) && q.testBit w) := fun j => by
      by_cases hj : j < w + 1
      · simp [hall j hj, hj]
      · have hbig : q < 2 ^ j := hq.trans_le (Nat.pow_le_pow_right (by decide) (by omega))
        simp [Nat.testBit_lt_two_pow hbig, hj]
    cases htop : q.testBit w with
    | false => exact .inl (Nat.eq_of_testBit_eq fun j => by rw [hbits, htop, Bool.and_false, Nat.zero_testBit])
    | true => exact .inr (Nat.eq_of_testBit_eq fun j => by rw [hbits, htop, Bool.and_true, Nat.testBit_two_pow_sub_one])

/-- R34: a 64-bit address is canonical exactly when its bits 63 down to `vaBits - 1` are all equal. -/
theorem canonical_iff_testBit {vaBits a : Nat} (hlo : 1 ≤ vaBits) (hhi : vaBits ≤ 64) (ha : a < 2 ^ 64) :
    canonical vaBits a = true ↔ ∀ b, vaBits - 1 ≤ b → b < 64 → a.testBit b = a.testBit 63 := by
  obtain ⟨m, w, rfl, hw⟩ : ∃ m w, vaBits = m + 1 ∧ m + w = 63 := ⟨vaBits - 1, 64 - vaBits, by omega, by omega⟩
  have hq : a / 2 ^ m < 2 ^ (w + 1) := Nat.div_lt_of_lt_mul (by rw [← pow_add]; simpa [← Nat.add_assoc, hw] using ha)
  have hbit (j : Nat) : (a / 2 ^ m).testBit j = a.testBit (j + m) := Nat.testBit_div_two_pow a j
  rw [canonical, decide_eq_true_iff, Nat.add_sub_cancel, show 64 - m = w + 1 by omega, eq_zero_or_ones_iff hq]
  simp only [hbit, show w + m = 63 by omega]
  constructor
  · intro h b hb h64
    simpa [Nat.sub_add_cancel hb] using h (b - m) (by omega)
  · exact fun h j hj => h (j + m) (by omega) (by omega)

/-- R27: 64-bit mode is a protected mode, and not a virtual-8086 mode. -/
theorem protected_of_bits64 {s : State} (hc : s.ModeConsistent) (h64 : s.codeMode = .bits64) :
    s.cr0.pe = true ∧ s.vm = false := by
  obtain ⟨-, -, hlegacy, hreal⟩ := hc
  constructor
  · by_contra hpe
    simp [hreal (by simpa using hpe)] at h64
  · by_contra hvm
    simp [hlegacy (by simpa using hvm)] at h64

/-- Settles O26: #SS is raised where the bytes are not within the stack, which in 64-bit mode is to be canonical. -/
theorem nonCanonicalStackFaults : Obligations.NonCanonicalStackFaults := by
  intro i size s hf hc hz h64 hlo hhi hr
  obtain ⟨hpe, hvm⟩ := protected_of_bits64 hc h64
  have hw : s.stackAddrSize = 64 := by simp [State.stackAddrSize, h64]
  have hcanon : (∃ k < sizeBytes size, ∃ b, s.env.vaBits - 1 ≤ b ∧ b < 64 ∧
      (s.rsp.toNat + k).testBit b ≠ (s.rsp.toNat + k).testBit 63) ↔ ¬ StackInSegment s (sizeBytes size) := by
    rw [StackInRange, stackPointer_of_bits64 h64, hw] at hr
    rw [stackInSegment_iff_canonical h64]
    push Not
    refine exists_congr fun k => and_congr_right fun hk => ?_
    rw [ne_eq, canonical_iff_testBit hlo hhi (by omega)]
    push Not
    rfl
  rw [hcanon]
  constructor
  · intro hs
    have hfault := exec_fault_of_popStops hf hc hz (.inl hvm) (.segment hr hs)
    rwa [stackFaultCode, if_neg (by simp [hpe])] at hfault
  · intro h
    obtain ⟨size', hf', -, hs⟩ := stackOutsideSegmentFaults.2 i s _ h
    obtain rfl : size' = size := by simpa [hf] using hf'.symm
    exact hs

/-! Page faults -/

/-- R35: nothing faults in translation in real-address mode or while CR0.PG = 0. -/
theorem translateByte_of_unpaged {s : State} (h : s.cr0.pe = false ∨ s.cr0.pg = false) (la : Nat) :
    translateByte s la = .ok la := if_pos h

/-- R94: a #PF has its code from a translation, which real-address mode and CR0.PG = 0 do not have. -/
theorem exec_ne_pageFault_of_unpaged {s : State} (h : s.cr0.pe = false ∨ s.cr0.pg = false) (i : Instr) (code : ErrorCode) :
    exec i s ≠ .fault (.pageFault code) := by
  intro hfault
  obtain ⟨size, -, -, hstop⟩ := popStops_of_exec_fault hfault nofun nofun
  cases hstop with
  | page k _ _ _ _ _ ht =>
    rw [translateByte_of_unpaged h] at ht
    cases ht

/-- Settles O27: the lowest byte that faults is what stops the pop, and without paging none does. -/
theorem stackPageFaults : Obligations.StackPageFaults := by
  refine ⟨fun i size s k code hf hc hz hrp hr hs hk hbelow ht => ?raised, fun i s code h => ?never⟩
  case raised => exact exec_fault_of_popStops hf hc hz hrp (.page k code hr hs hk hbelow ht)
  case never => exact exec_ne_pageFault_of_unpaged h i code

/-! The lists -/

/-- R95: #AC(0) needs CPL 3, which real-address mode does not have. -/
theorem pe_of_not_stackAligned {s : State} {n : Nat} (h : ¬ StackAligned s n) : s.cr0.pe = true := by
  obtain ⟨-, -, -, hpe, -⟩ := not_stackAligned_iff.1 h
  exact hpe

/-- R97: #UD is on every list, #PF and #AC(0) on all but that of real-address mode, #SS on all with the mode's code. -/
theorem listedFault_invalidOpcode (m : OperatingMode) : listedFault m .invalidOpcode = true := by
  cases m <;> rfl

theorem listedFault_pageFault {m : OperatingMode} (h : m ≠ .realAddress) (code : ErrorCode) :
    listedFault m (.pageFault code) = true := by
  cases m
  case realAddress => exact absurd rfl h
  all_goals rfl

theorem listedFault_alignmentCheck {m : OperatingMode} (h : m ≠ .realAddress) : listedFault m (.alignmentCheck 0) = true := by
  cases m
  case realAddress => exact absurd rfl h
  all_goals rfl

theorem listedFault_stackFault (m : OperatingMode) :
    listedFault m (.stackFault (if m = .realAddress then none else some 0)) = true := by
  cases m <;> rfl

/-- Settles O30: the two #GP(0) need virtual-8086 mode, and of the stack read's faults #PF and #AC(0) need PE = 1. -/
theorem onlyListedFaultsInEachMode : Obligations.OnlyListedFaultsInEachMode := by
  intro i s m f hmode h
  obtain ⟨hc, -⟩ := operatingMode_cases hmode
  have hreal (hpe : s.cr0.pe = true) : m ≠ .realAddress := by
    rintro rfl
    simp [(operatingMode_eq_realAddress_iff hc).1 hmode] at hpe
  have hgp (hf : f = .generalProtection 0) : listedFault m f = true := by
    subst hf
    obtain rfl | rfl := operatingMode_of_vm hmode (vm_of_exec_generalProtection h) <;> rfl
  obtain ⟨-, rfl⟩ | ⟨size, -, ⟨-, hearly⟩ | ⟨-, hstop | ⟨-, -, -, hlate⟩⟩⟩ := exec_fault h
  · exact listedFault_invalidOpcode m
  · exact hgp hearly
  · cases hstop with
    | segment =>
      rw [stackFaultCode_eq hc, hmode]
      simpa using listedFault_stackFault m
    | page k code _ _ _ _ _ =>
      refine listedFault_pageFault (hreal ?_) code
      by_contra hpe
      exact exec_ne_pageFault_of_unpaged (.inl (by simpa using hpe)) i code h
    | align _ _ _ ha => exact listedFault_alignmentCheck (hreal (pe_of_not_stackAligned ha))
  · exact hgp hlate

end Sys2Proof.Machine

/-! PROOF. CPL in real-address mode and CR4.VME with VM = 0 have no effect (spec 10_state.md R14, R16). Both are changes of CPL and
CR4 alone, `State.withPrivilege`; such a change commutes with an instruction where what the rules read of the two is as before,
`PrivilegeUnseen`. -/

namespace Sys2Proof.Machine

/-- The state with CPL and CR4 changed. -/
def State.withPrivilege (s : State) (level : Level → Level) (control : Cr4 → Cr4) : State :=
  { s with cpl := level s.cpl, cr4 := control s.cr4 }

/-- What the rules read of CPL and CR4 is as before the change: the CPL of R14, the invariants of R27, and VME where VM is set. -/
structure PrivilegeUnseen (s : State) (level : Level → Level) (control : Cr4 → Cr4) : Prop where
  effectiveCpl : (s.withPrivilege level control).effectiveCpl = s.effectiveCpl
  mode : (s.withPrivilege level control).ModeConsistent ↔ s.ModeConsistent
  vme : s.vm = true → (control s.cr4).vme = s.cr4.vme

/-- R35: a run is translated alike where its bytes are. -/
theorem translateAll_congr {s u : State} (h : translateByte u = translateByte s) (las : List Nat) :
    translateAll u las = translateAll s las := by
  induction las with
  | nil => rfl
  | cons la rest ih => simp only [translateAll, h, ih]

section WithPrivilege

variable {s : State} {level : Level → Level} {control : Cr4 → Cr4}

@[simp] theorem State.withPrivilege_stackAddrSize : (s.withPrivilege level control).stackAddrSize = s.stackAddrSize := rfl
@[simp] theorem State.withPrivilege_stackPointer : (s.withPrivilege level control).stackPointer = s.stackPointer := rfl
@[simp] theorem State.withPrivilege_rspWith (v : Nat) : (s.withPrivilege level control).rspWith v = s.rspWith v := rfl
@[simp] theorem State.withPrivilege_drawsAfterPop : (s.withPrivilege level control).drawsAfterPop = s.drawsAfterPop := rfl
@[simp] theorem stackSegCheck_withPrivilege : stackSegCheck (s.withPrivilege level control) = stackSegCheck s := rfl

/-- R60: completing writes neither CPL nor CR4, and reads neither. -/
theorem complete_withPrivilege (flags : Word64) (p : Popped) (n : Nat) :
    complete (s.withPrivilege level control) flags p n = mapNext (·.withPrivilege level control) (complete s flags p n) := by
  unfold complete
  rw [apply_ite (mapNext _)]
  rfl

variable (h : PrivilegeUnseen s level control)
include h

/-- R35, R36: the stack read uses the CPL of R14 alone, in translation and in the alignment check. -/
theorem readStack_withPrivilege (la n : Nat) : readStack (s.withPrivilege level control) la n = readStack s la n := by
  have htranslate : translateByte (s.withPrivilege level control) = translateByte s := by
    funext la
    unfold translateByte
    rw [h.effectiveCpl]
    rfl
  have halign : alignmentFault (s.withPrivilege level control) la n = alignmentFault s la n := by
    unfold alignmentFault
    rw [h.effectiveCpl]
    rfl
  unfold readStack
  rw [translateAll_congr htranslate, halign]
  rfl

theorem pop_withPrivilege (n : Nat) : pop n (s.withPrivilege level control) = pop n s := by
  simp [pop, readStack_withPrivilege h]

theorem popMasked_withPrivilege (size : OperandSize) (mask : Word64) (n : Nat) :
    popMasked size mask n (s.withPrivilege level control) =
      mapNext (·.withPrivilege level control) (popMasked size mask n s) := by
  unfold popMasked
  rw [pop_withPrivilege h]
  cases pop (sizeBytes size) s with
  | error e => exact (mapNext_stopWith _ e).symm
  | ok p => exact complete_withPrivilege _ p n

theorem popVme_withPrivilege (n : Nat) :
    popVme n (s.withPrivilege level control) = mapNext (·.withPrivilege level control) (popVme n s) := by
  unfold popVme
  rw [pop_withPrivilege h]
  cases pop (sizeBytes .s16) s with
  | error e => exact (mapNext_stopWith _ e).symm
  | ok p =>
    dsimp only
    rw [apply_ite (mapNext _), mapNext_raise, ← complete_withPrivilege]
    rfl

/-- The branch of R60 is chosen by what is as before the change: VME is asked for with VM set only. -/
theorem execSized_withPrivilege (size : OperandSize) (n : Nat) :
    execSized size n (s.withPrivilege level control) = mapNext (·.withPrivilege level control) (execSized size n s) := by
  unfold execSized
  rw [apply_ite (mapNext _)]
  refine if_congr (and_congr_left' h.mode) ?_ rfl
  have hmask : writeMask (s.withPrivilege level control).vm (s.withPrivilege level control).cr0.pe
      (s.withPrivilege level control).effectiveCpl (s.withPrivilege level control).iopl size =
      writeMask s.vm s.cr0.pe s.effectiveCpl s.iopl size := by
    rw [h.effectiveCpl]
    rfl
  rw [hmask]
  cases hm : writeMask s.vm s.cr0.pe s.effectiveCpl s.iopl size with
  | some mask => exact popMasked_withPrivilege h size mask n
  | none =>
    have hvme : (s.withPrivilege level control).cr4.vme = s.cr4.vme := h.vme (writeMask_eq_none_iff.1 hm).1
    dsimp only
    rw [apply_ite (mapNext _), popVme_withPrivilege h, hvme, mapNext_raise]

theorem exec_withPrivilege (i : Instr) :
    exec i (s.withPrivilege level control) = mapNext (·.withPrivilege level control) (exec i s) := by
  cases hf : formSize i with
  | none => rw [exec_of_formSize_none hf, exec_of_formSize_none hf, mapNext_fault]
  | some size => rw [exec_of_formSize hf, exec_of_formSize hf, execSized_withPrivilege h]

end WithPrivilege

/-- R27: in real-address mode the invariants do not speak of CPL: they exclude VM. -/
theorem modeConsistent_iff_of_realAddress {s : State} (hpe : s.cr0.pe = false) :
    s.ModeConsistent ↔ s.vm = false ∧ s.codeMode = .legacy := by
  constructor
  · exact fun ⟨hvm, _, _, hmode⟩ => ⟨hvm hpe, hmode hpe⟩
  · exact fun ⟨hvm, hmode⟩ => ⟨fun _ => hvm, by simp [hvm], fun _ => hmode, fun _ => hmode⟩

/-- Settles O40: with PE = 0 the CPL of the rules is 0, and the invariants do not speak of the field. -/
theorem realAddressModeIgnoresCpl : Obligations.RealAddressModeIgnoresCpl := by
  intro i s c hpe
  refine exec_withPrivilege (s := s) (level := fun _ => c) (control := id) ⟨?_, ?_, fun _ => rfl⟩ i
  · rw [effectiveCpl_of_realAddress hpe]
    exact effectiveCpl_of_realAddress hpe
  · exact (modeConsistent_iff_of_realAddress (s := s.withPrivilege (fun _ => c) id) hpe).trans
      (modeConsistent_iff_of_realAddress hpe).symm

/-- Settles O41: CR4 is in neither the CPL of the rules nor the invariants, and VME is asked for with VM set only. -/
theorem vmeHasNoEffectOutsideVirtual8086 : Obligations.VmeHasNoEffectOutsideVirtual8086 := by
  intro i s v hvm
  exact exec_withPrivilege (s := s) (level := id) (control := fun c => { vme := v, pvi := c.pvi })
    ⟨rfl, Iff.rfl, fun h => by simp [hvm] at h⟩ i

end Sys2Proof.Machine
